-- ==== Sys2Proof/Word.lean ====
section
/-! DEFINITION. The block's two word types: the 64-bit command word and the 8-bit framebuffer byte. -/

namespace Sys2Proof

/-- A DMDC-1 command word: 64 bits, bit 63 the most significant (30_encoding.md R100). -/
abbrev Word := BitVec 64

/-- A framebuffer byte, and the AUX field's width (00_scope.md R13, 20_memory.md R75). -/
abbrev Byte := BitVec 8

end Sys2Proof
end

