-- ==== Sys2Proof/Syntax.lean ====
section
/-! DEFINITION. The commands of DMDC-1 as terms: one constructor of `Instr` for each row of the opcode table. -/

namespace Sys2Proof

/-- The five graphics modes, in the order of their codes (30_encoding.md R102). -/
inductive Mode where
  | normal | inverse | toggle | or | nor
  deriving DecidableEq, Repr

/-- The two glyph geometries that bit 56 of GLYPH selects (30_encoding.md R103). -/
inductive Geometry where
  | compact | tall
  deriving DecidableEq, Repr

/-- The four test patterns, in the order of their ids (41_primitives.md R176). -/
inductive Pattern where
  | alt0 | alt1 | stripe0 | stripe1
  deriving DecidableEq, Repr

/-- One command. Coordinates and the radius are the signed integers of 00_scope.md R11. A MODE field and a pattern
id stand as the word holds them: which of their values the port refuses is part of each command's meaning
(30_encoding.md R110, checks 3 and 4). -/
inductive Instr where
  | nop
  | writePixel (x y : Int) (mode : BitVec 3) (v : Bool)
  | readPixel (x y : Int)
  | clear (fill : Byte)
  | line (x1 y1 x2 y2 : Int) (mode : BitVec 3)
  | box (x1 y1 x2 y2 : Int) (mode : BitVec 3)
  | filledBox (x1 y1 x2 y2 : Int) (mode : BitVec 3)
  | circle (xc yc r : Int) (mode : BitVec 3)
  | glyph (x y : Int) (code : Byte) (g : Geometry) (mode : BitVec 3)
  | testPattern (id : Byte)
  | scanOnce
  | fence
  deriving DecidableEq, Repr

end Sys2Proof
end

