-- ==== Sys2Proof/WellFormed.lean ====
section
/-! DEFINITION. Which commands a word can hold: "Coordinates and the radius must lie in [-2048, 2047]"
(30_encoding.md R113). The other operands are exactly as wide as their fields. -/

namespace Sys2Proof

/-- A coordinate or radius that twelve bits hold (00_scope.md R11). -/
def coordOk (n : Int) : Bool := decide (-2048 ≤ n) && decide (n ≤ 2047)

/-- The instruction can be encoded (30_encoding.md R113). -/
def Instr.wf : Instr → Bool
  | .nop => true
  | .writePixel x y _ _ => coordOk x && coordOk y
  | .readPixel x y => coordOk x && coordOk y
  | .clear _ => true
  | .line x1 y1 x2 y2 _ => coordOk x1 && coordOk y1 && coordOk x2 && coordOk y2
  | .box x1 y1 x2 y2 _ => coordOk x1 && coordOk y1 && coordOk x2 && coordOk y2
  | .filledBox x1 y1 x2 y2 _ => coordOk x1 && coordOk y1 && coordOk x2 && coordOk y2
  | .circle xc yc r _ => coordOk xc && coordOk yc && coordOk r
  | .glyph x y _ _ _ => coordOk x && coordOk y
  | .testPattern _ => true
  | .scanOnce => true
  | .fence => true

end Sys2Proof
end

