-- ==== Sys2Proof/Decode.lean ====
section
/-! DEFINITION. From words to commands and back (30_encoding.md): the fields of R100, the formats and masks of R104,
the opcodes of R106, a total decoder that rejects by name, and an encoder written from the same tables. -/

namespace Sys2Proof

/-- The eight formats (30_encoding.md R104). -/
inductive Format where
  | n | p | r | f | l | ci | g | t
  deriving DecidableEq, Repr

/-- The twelve operations (30_encoding.md R106). -/
inductive Op where
  | nop | writePixel | readPixel | clear | line | box | filledBox | circle | glyph | testPattern | scanOnce | fence
  deriving DecidableEq, Repr

/-- Why a word is no command; each is refused with F_ILLCMD (30_encoding.md R107), but for `truncated`. -/
inductive Reject where
  /-- OPC 0xC to 0xF (R110, check 1). -/
  | reservedOpcode
  /-- A reserved field of the format is not 0 (R110, check 2). -/
  | reservedField
  /-- Fewer than the eight bytes of a word have arrived on a byte-wide link (20_memory.md R76). -/
  | truncated
  deriving DecidableEq, Repr

/-- The fixed-bit mask, OPC plus the reserved fields (30_encoding.md R104). -/
def Format.mask : Format → Word
  | .n  => 0xFFFFFFFFFFFFFFFF
  | .p  => 0xF0FF000000FFFFFF
  | .r  => 0xFFFF000000FFFFFF
  | .f  => 0xFF00FFFFFFFFFFFF
  | .l  => 0xF1FF000000000000
  | .ci => 0xF1FF000000000FFF
  | .g  => 0xF000000000FFFFFF
  | .t  => 0xFF00FFFFFFFFFFFF

/-- The format of an operation (30_encoding.md R106). -/
def Op.format : Op → Format
  | .nop => .n
  | .writePixel => .p
  | .readPixel => .r
  | .clear => .f
  | .line => .l
  | .box => .l
  | .filledBox => .l
  | .circle => .ci
  | .glyph => .g
  | .testPattern => .t
  | .scanOnce => .n
  | .fence => .n

/-- The opcode value (30_encoding.md R106). -/
def Op.code : Op → BitVec 4
  | .nop => 0x0
  | .writePixel => 0x1
  | .readPixel => 0x2
  | .clear => 0x3
  | .line => 0x4
  | .box => 0x5
  | .filledBox => 0x6
  | .circle => 0x7
  | .glyph => 0x8
  | .testPattern => 0x9
  | .scanOnce => 0xA
  | .fence => 0xB

/-- The operation an OPC value names; 0xC to 0xF name none (30_encoding.md R106). -/
def Op.ofCode (c : BitVec 4) : Option Op :=
  match c.toNat with
  | 0x0 => some .nop
  | 0x1 => some .writePixel
  | 0x2 => some .readPixel
  | 0x3 => some .clear
  | 0x4 => some .line
  | 0x5 => some .box
  | 0x6 => some .filledBox
  | 0x7 => some .circle
  | 0x8 => some .glyph
  | 0x9 => some .testPattern
  | 0xA => some .scanOnce
  | 0xB => some .fence
  | _ => none

/-- OPC = w[63:60] (30_encoding.md R100). -/
def opcField (w : Word) : BitVec 4 := w.extractLsb' 60 4

/-- MODE = w[59:57] (30_encoding.md R101). -/
def modeField (w : Word) : BitVec 3 := w.extractLsb' 57 3

/-- V, or G, = w[56] (30_encoding.md R103). -/
def vField (w : Word) : Bool := w.getLsbD 56

/-- AUX = zext_8(w[55:48]) (30_encoding.md R101). -/
def auxField (w : Word) : Byte := w.extractLsb' 48 8

/-- A = sext_12(w[47:36]) (30_encoding.md R101). -/
def aField (w : Word) : Int := (w.extractLsb' 36 12).toInt

/-- B = sext_12(w[35:24]) (30_encoding.md R101). -/
def bField (w : Word) : Int := (w.extractLsb' 24 12).toInt

/-- C = sext_12(w[23:12]) (30_encoding.md R101). -/
def cField (w : Word) : Int := (w.extractLsb' 12 12).toInt

/-- D = sext_12(w[11:0]) (30_encoding.md R101). -/
def dField (w : Word) : Int := (w.extractLsb' 0 12).toInt

/-- Bit 56 of GLYPH: 0 is compact and 1 is tall (30_encoding.md R103). -/
def Geometry.ofBit : Bool → Geometry
  | false => .compact
  | true => .tall

/-- The value of bit 56 for a geometry (30_encoding.md R103). -/
def Geometry.toBit : Geometry → Bool
  | .compact => false
  | .tall => true

/-- The command of an operation with its operands taken from the word (30_encoding.md R104, R113). -/
def Op.build (op : Op) (w : Word) : Instr :=
  match op with
  | .nop => .nop
  | .writePixel => .writePixel (aField w) (bField w) (modeField w) (vField w)
  | .readPixel => .readPixel (aField w) (bField w)
  | .clear => .clear (auxField w)
  | .line => .line (aField w) (bField w) (cField w) (dField w) (modeField w)
  | .box => .box (aField w) (bField w) (cField w) (dField w) (modeField w)
  | .filledBox => .filledBox (aField w) (bField w) (cField w) (dField w) (modeField w)
  | .circle => .circle (aField w) (bField w) (cField w) (modeField w)
  | .glyph => .glyph (aField w) (bField w) (auxField w) (Geometry.ofBit (vField w)) (modeField w)
  | .testPattern => .testPattern (auxField w)
  | .scanOnce => .scanOnce
  | .fence => .fence

/-- The command a word selects: "A word selects opcode k when (w & mask_k) == (k << 60)" (30_encoding.md R106).
Checks 1 and 2 of R110, in that order. -/
def decode (w : Word) : Except Reject Instr :=
  match Op.ofCode (opcField w) with
  | none => .error .reservedOpcode
  | some op =>
    if w &&& op.format.mask = (op.code.setWidth 64) <<< 60 then .ok (op.build w) else .error .reservedField

/-- A word put together from its eight fields, most significant first (30_encoding.md R100). -/
def pack (op : Op) (mode : BitVec 3) (v : Bool) (aux : Byte) (a b c d : Int) : Word :=
  (op.code ++ mode ++ BitVec.ofBool v ++ aux ++ BitVec.ofInt 12 a ++ BitVec.ofInt 12 b ++ BitVec.ofInt 12 c ++
    BitVec.ofInt 12 d : BitVec (4 + 3 + 1 + 8 + 12 + 12 + 12 + 12))

/-- The operation of a command. -/
def Instr.op : Instr → Op
  | .nop => .nop
  | .writePixel _ _ _ _ => .writePixel
  | .readPixel _ _ => .readPixel
  | .clear _ => .clear
  | .line _ _ _ _ _ => .line
  | .box _ _ _ _ _ => .box
  | .filledBox _ _ _ _ _ => .filledBox
  | .circle _ _ _ _ => .circle
  | .glyph _ _ _ _ _ => .glyph
  | .testPattern _ => .testPattern
  | .scanOnce => .scanOnce
  | .fence => .fence

/-- The word of a command: every operand in its field, every reserved field 0 (30_encoding.md R104, R113). -/
def encode : Instr → Word
  | .nop => pack .nop 0 false 0 0 0 0 0
  | .writePixel x y mode v => pack .writePixel mode v 0 x y 0 0
  | .readPixel x y => pack .readPixel 0 false 0 x y 0 0
  | .clear fill => pack .clear 0 false fill 0 0 0 0
  | .line x1 y1 x2 y2 mode => pack .line mode false 0 x1 y1 x2 y2
  | .box x1 y1 x2 y2 mode => pack .box mode false 0 x1 y1 x2 y2
  | .filledBox x1 y1 x2 y2 mode => pack .filledBox mode false 0 x1 y1 x2 y2
  | .circle xc yc r mode => pack .circle mode false 0 xc yc r 0
  | .glyph x y code g mode => pack .glyph mode g.toBit code x y 0 0
  | .testPattern id => pack .testPattern 0 false id 0 0 0 0
  | .scanOnce => pack .scanOnce 0 false 0 0 0 0 0
  | .fence => pack .fence 0 false 0 0 0 0 0

/-- The eight bytes of a word on a byte-wide link, most significant first (20_memory.md R76). -/
def bytesOfWord (w : Word) : List Byte :=
  [w.extractLsb' 56 8, w.extractLsb' 48 8, w.extractLsb' 40 8, w.extractLsb' 32 8,
   w.extractLsb' 24 8, w.extractLsb' 16 8, w.extractLsb' 8 8, w.extractLsb' 0 8]

/-- The word that eight bytes carry, the first one most significant (20_memory.md R76). -/
def wordOfBytes (b7 b6 b5 b4 b3 b2 b1 b0 : Byte) : Word :=
  (b7 ++ b6 ++ b5 ++ b4 ++ b3 ++ b2 ++ b1 ++ b0 : BitVec (8 + 8 + 8 + 8 + 8 + 8 + 8 + 8))

/-- The command at the front of the bytes of a byte-wide link, and the bytes after it. "The port treats the word as
written only when all eight bytes have arrived" (20_memory.md R76). -/
def decodeBytes : List Byte → Except Reject (Instr × List Byte)
  | b7 :: b6 :: b5 :: b4 :: b3 :: b2 :: b1 :: b0 :: rest =>
    match decode (wordOfBytes b7 b6 b5 b4 b3 b2 b1 b0) with
    | .ok i => .ok (i, rest)
    | .error e => .error e
  | _ => .error .truncated

/-- The 64-bit word whose low `nbits` bits are those of `w` and whose other bits are 0. -/
def tableWord (nbits w : Nat) : Word := BitVec.ofNat 64 (w % 2 ^ nbits)

/-- What the decoder reads from a word numbered as spec/opcode_table.json numbers it: bit 0 least significant. -/
def decodeTableWord (nbits w : Nat) : Option Instr := (decode (tableWord nbits w)).toOption

/-- `SETPIX x, y` (30_encoding.md R114). -/
def Instr.setpix (x y : Int) : Instr := .writePixel x y 0 true

/-- `CLRPIX x, y` (30_encoding.md R114). -/
def Instr.clrpix (x y : Int) : Instr := .writePixel x y 0 false

/-- `FLIPPIX x, y` (30_encoding.md R114). -/
def Instr.flippix (x y : Int) : Instr := .writePixel x y 2 true

/-- `CLS` (30_encoding.md R114). -/
def Instr.cls : Instr := .clear 0x00

/-- `FILLSCR` (30_encoding.md R114). -/
def Instr.fillscr : Instr := .clear 0xFF

end Sys2Proof
end

