-- ==== Sys2Proof/Config.lean ====
section
/-! DEFINITION. What is fixed when a block is built (00_scope.md R6 to R10), the agents, and the two free values. -/

namespace Sys2Proof

/-- One geometry of the glyph resource: GW, GH, and the bitmaps by character code, each a list of GH rows of GW bits,
top row first, column 0 first (00_scope.md R10). A code that is not listed is absent. -/
structure Font where
  width  : Nat
  height : Nat
  glyphs : List (Byte × List (List Bool))
  deriving DecidableEq, Repr

/-- The open parameters of a block (00_scope.md R10). -/
structure Config where
  /-- W, the panel width in pixels (R6). -/
  width      : Nat
  /-- H, the panel height in pixels (R7). -/
  height     : Nat
  /-- SCAN_START (R10). -/
  scanStart  : BitVec 2
  /-- SliceOrder(s) for s = 0, 1, 2, 3 (R10, 42_scan.md R201). -/
  sliceOrder : Vector (List Nat) 4
  /-- GW[0], GH[0], GlyphROM(0, ·). -/
  compact    : Font
  /-- GW[1], GH[1], GlyphROM(1, ·). -/
  tall       : Font
  deriving DecidableEq, Repr

/-- The agents that take steps (00_scope.md R5), the command port among them (30_encoding.md R111). -/
inductive Agent where
  | port | de | se | host
  deriving DecidableEq, Repr, Inhabited

/-- FREE VALUE (log 2, safe): what BUS_CLAIMED is at the n-th sample for which State lists no draw
("a free draw of the environment, under no law", 10_state.md R59). -/
opaque Config.busClaimed : Nat → Bool

/-- FREE VALUE (log 1, safe): the agent that is to move at the n-th step for which State lists no turn
("Which agent steps next is free", 20_memory.md R83). -/
opaque Config.freeTurn : Nat → Agent

end Sys2Proof
end

