-- ==== Sys2Proof/Machine/Geometry.lean ====
section
/-! DEFINITION. What follows from a block's parameters (00_scope.md R8), which parameters are legal, the default
SliceOrder (42_scan.md R201), and the reference block's configuration (00_scope.md R9). -/

namespace Sys2Proof

/-- BPR = W / 8 (00_scope.md R8). -/
def Config.bytesPerRow (c : Config) : Nat := c.width / 8

/-- FB_BYTES = BPR × H (00_scope.md R8). -/
def Config.fbBytes (c : Config) : Nat := c.bytesPerRow * c.height

/-- RPS = H / 4 (00_scope.md R8). -/
def Config.rowsPerSlice (c : Config) : Nat := c.height / 4

/-- SLICE_BYTES = RPS × BPR (00_scope.md R8). -/
def Config.sliceBytes (c : Config) : Nat := c.rowsPerSlice * c.bytesPerRow

/-- The default SliceOrder(s) of a W × H panel: rows s, s+4, ... ascending, columns ascending (42_scan.md R201). -/
def defaultSliceOrder (width height s : Nat) : List Nat :=
  (List.range (height / 4)).flatMap fun k =>
    (List.range (width / 8)).map fun c => (s + 4 * k) * (width / 8) + c

/-- What 00_scope.md R10 asks of a geometry: sizes in 1..255, every bitmap GH rows of GW bits. -/
abbrev Font.wf (f : Font) : Prop :=
  1 ≤ f.width ∧ f.width ≤ 255 ∧ 1 ≤ f.height ∧ f.height ≤ 255 ∧
  ∀ g ∈ f.glyphs, g.2.length = f.height ∧ ∀ row ∈ g.2, row.length = f.width

/-- What 00_scope.md R6, R7, R10 and 42_scan.md R201 ask of a configuration. -/
abbrev Config.wf (c : Config) : Prop :=
  c.width % 8 = 0 ∧ 8 ≤ c.width ∧ c.width ≤ 2048 ∧
  c.height % 4 = 0 ∧ 4 ≤ c.height ∧ c.height ≤ 2048 ∧
  (∀ s : Fin 4, (c.sliceOrder[s]).Perm (defaultSliceOrder c.width c.height s)) ∧
  c.compact.wf ∧ c.tall.wf

/-- A W × H panel with the default SliceOrder and the given SCAN_START and glyph resource. -/
def Config.panel (width height : Nat) (scanStart : BitVec 2) (compact tall : Font) : Config where
  width := width
  height := height
  scanStart := scanStart
  sliceOrder := #v[defaultSliceOrder width height 0, defaultSliceOrder width height 1,
    defaultSliceOrder width height 2, defaultSliceOrder width height 3]
  compact := compact
  tall := tall

/-- The configuration of State.reset: the reference panel of 00_scope.md R9 (W = 32, H = 16), SCAN_START 0 and the
default SliceOrder (R10). DESIGN CHOICE (log 5, unsafe): the glyph resource, which the spec leaves open, is the test
fixture of 95_test_vectors.md. -/
def Config.reference : Config :=
  Config.panel 32 16 0
    { width := 3, height := 5,
      glyphs := [(0x31, [[false, true, false], [true, true, false], [false, true, false], [false, true, false],
        [true, true, true]])] }
    { width := 5, height := 8, glyphs := [] }

end Sys2Proof
end

