-- ==== Sys2Proof/Machine/State.lean ====
section
/-! DEFINITION. The block's state as plain data (10_state.md), the reasons a step can stop, and the state after reset
(70_reset_and_hazards.md R280). -/

namespace Sys2Proof.Machine

/-- The framebuffer's contents: (offset, byte) cells, offsets strictly rising, no byte that an unlisted offset reads
as (log 9). -/
abbrev Memory := List Host.Cell

/-- What an offset that is not listed reads as: "The reset value of every FB byte is 0x00" (10_state.md R33). -/
def Memory.unlisted : Byte := 0x00

/-- The one canonical form of a framebuffer. -/
abbrev Memory.wf (m : Memory) : Prop :=
  m.Pairwise (fun c d => c.1 < d.1) ∧ ∀ c ∈ m, c.2 ≠ Memory.unlisted

/-- The DE's micro-operations (20_memory.md R79). -/
inductive MicroOp where
  /-- PIXOP(x, y, mode, v) (40_pixel.md R136). -/
  | pixop (x y : Int) (mode : Mode) (v : Bool)
  /-- RDPIX(x, y) (40_pixel.md R137). -/
  | rdpix (x y : Int)
  /-- FILL(i, b) (40_pixel.md R140). -/
  | fill (i : Nat) (b : Byte)
  deriving DecidableEq, Repr

/-- The phases of a scan after its sample step (10_state.md R55). -/
inductive Phase where
  | blank | select | shift (k : Nat) | latch | enable | advance
  deriving DecidableEq, Repr

/-- The SE's progress (10_state.md R55). The sample phase carries no slice: its own step sets s (42_scan.md R202; log 8). -/
inductive Scan where
  | idle
  | sample
  | transfer (s : BitVec 2) (phase : Phase)
  deriving DecidableEq, Repr

/-- Bus/pin events (10_state.md R53). -/
inductive Event where
  | oe (b : Bool)
  | sel (s : BitVec 2)
  | shift (b : Byte)
  | latch
  deriving DecidableEq, Repr

/-- The three sticky fault flags (60_exceptions.md R240). -/
inductive FaultFlag where
  | illcmd | illmode | illarg
  deriving DecidableEq, Repr

/-- What the host does (60_exceptions.md R258). -/
inductive HostMove where
  /-- Write a command word to the port (10_state.md R49). -/
  | write (w : Word)
  /-- Read STATUS (10_state.md R48); RDSTATUS of 30_encoding.md R114. -/
  | readStatus
  /-- Read STATUS until bits 6:5 are both 0; WAITIDLE of 30_encoding.md R114 (log 13). -/
  | waitIdle
  /-- Assert RESET (10_state.md R60). -/
  | reset
  deriving DecidableEq, Repr

/-- Why the machine stops with a fault. -/
inductive Fault where
  /-- Raised by the DE's FILL and the SE's shift step at an offset outside 0 to FB_BYTES-1, which 20_memory.md R70
  says is never formed. Safe: no run that keeps the state invariant meets it (log 10). -/
  | noSuchByte (offset : Nat)
  /-- Raised by the SE's shift step for an index that SliceOrder(s) does not have (10_state.md R55 bounds k). Safe:
  no run that keeps the state invariant meets it (log 10). -/
  | noSuchShift (k : Nat)
  deriving DecidableEq, Repr

/-- Why the machine gives no meaning. -/
inductive Refusal where
  /-- Raised by exec for an instruction that has no meaning in this model. Safe. No arm of exec raises it. -/
  | notModelled (mnemonic : String)
  deriving DecidableEq, Repr

/-- The state of the block, its configuration, and what stands outside it as plain data. -/
structure State where
  /-- The block's parameters (00_scope.md R10); no step writes it (log 4). -/
  cfg         : Config
  /-- FB (10_state.md R32). -/
  fb          : Memory
  /-- CURSOR (10_state.md R34). -/
  cursor      : BitVec 2
  /-- STATUS.PIX (10_state.md R38). -/
  pix         : Bool
  /-- STATUS.RDV (10_state.md R39). -/
  rdv         : Bool
  /-- STATUS.SKIP (10_state.md R41). -/
  skip        : Bool
  /-- STATUS.F_ILLCMD (10_state.md R44). -/
  fIllcmd     : Bool
  /-- STATUS.F_ILLMODE (10_state.md R45). -/
  fIllmode    : Bool
  /-- STATUS.F_ILLARG (10_state.md R46). -/
  fIllarg     : Bool
  /-- DE progress (10_state.md R54): the micro-operations not yet performed; idle is the empty list (log 7). -/
  deOps       : List MicroOp
  /-- SE progress (10_state.md R55). -/
  se          : Scan
  /-- The command port's holding slot (10_state.md R50). -/
  slot        : Option Word
  /-- ROW_OE (10_state.md R51). -/
  rowOe       : Bool
  /-- ROW_SEL[1:0] (10_state.md R52). -/
  rowSel      : BitVec 2
  /-- The event history, oldest first (10_state.md R53). -/
  events      : List Event
  /-- How many words the port has accepted: the program counter's analogue (10_state.md R31, log 12). -/
  hostIndex   : Nat
  /-- MODEL's own: the moves the host still makes, next first (60_exceptions.md R258, log 3). -/
  host        : List HostMove
  /-- MODEL's own: the values the host's STATUS reads returned, oldest first (10_state.md R48, log 3). -/
  statusReads : List (BitVec 16)
  /-- MODEL's own: the agents that are to move next (20_memory.md R83, log 1). -/
  schedule    : List Agent
  /-- MODEL's own: how many turns were taken from the free value (log 1). -/
  turns       : Nat
  /-- MODEL's own: BUS_CLAIMED at the next samples (10_state.md R59, log 2). -/
  busDraws    : List Bool
  /-- MODEL's own: how many samples were taken from the free value (log 2). -/
  samples     : Nat
  deriving DecidableEq, Repr

/-- The block of a given configuration right after RESET (70_reset_and_hazards.md R280), with nothing outside it
planned: no host move, no listed turn or draw (DESIGN CHOICE, log 18). -/
def State.resetOf (c : Config) : State where
  cfg := c
  fb := []
  cursor := c.scanStart
  pix := false
  rdv := false
  skip := false
  fIllcmd := false
  fIllmode := false
  fIllarg := false
  deOps := []
  se := .idle
  slot := none
  rowOe := false
  rowSel := 0
  events := []
  hostIndex := 0
  host := []
  statusReads := []
  schedule := []
  turns := 0
  busDraws := []
  samples := 0

/-- The reference block (00_scope.md R9, log 5) right after reset. -/
def State.reset : State := State.resetOf Config.reference

end Sys2Proof.Machine
end

