-- ==== Sys2Proof/Machine/Operands.lean ====
section
/-! DEFINITION. What a command's fields name: the graphics mode, the pattern, the glyph, the pixel's byte and bit, the
slice's bytes. -/

namespace Sys2Proof

/-- The mode that a MODE field encodes; 5, 6 and 7 encode none (30_encoding.md R102). -/
def Mode.ofField (m : BitVec 3) : Option Mode :=
  match m.toNat with
  | 0 => some .normal
  | 1 => some .inverse
  | 2 => some .toggle
  | 3 => some .or
  | 4 => some .nor
  | _ => none

/-- The pattern of an id; 4 to 255 name none (41_primitives.md R176). -/
def Pattern.ofId (id : Byte) : Option Pattern :=
  match id.toNat with
  | 0 => some .alt0
  | 1 => some .alt1
  | 2 => some .stripe0
  | 3 => some .stripe1
  | _ => none

/-- pat(x, y) (41_primitives.md R176). -/
def Pattern.pixel (p : Pattern) (x y : Nat) : Bool :=
  match p with
  | .alt0 => (x + y) % 2 == 0
  | .alt1 => (x + y) % 2 == 1
  | .stripe0 => x % 2 == 0
  | .stripe1 => x % 2 == 1

/-- GW[g], GH[g] and the bitmaps of a geometry (00_scope.md R10). -/
def Config.font (c : Config) : Geometry → Font
  | .compact => c.compact
  | .tall => c.tall

/-- GlyphROM(g, code): `none`, or the bitmap (00_scope.md R10; log 17). -/
def Config.glyph (c : Config) (g : Geometry) (code : Byte) : Option (List (List Bool)) :=
  (c.font g).glyphs.lookup code

/-- bm[row][col] (41_primitives.md R174; log 17). -/
def glyphBit (bm : List (List Bool)) (row col : Nat) : Bool := ((bm[row]?).getD [])[col]?.getD false

/-- InRange(x, y) (40_pixel.md R133). -/
def Config.inRange (c : Config) (x y : Int) : Bool :=
  decide (0 ≤ x) && decide (x < (c.width : Int)) && decide (0 ≤ y) && decide (y < (c.height : Int))

/-- The byte offset y × BPR + (x div 8) of an in-range pixel (40_pixel.md R131). -/
def Config.offset (c : Config) (x y : Int) : Nat := y.toNat * c.bytesPerRow + x.toNat / 8

/-- MASK[x mod 8], where MASK[p] = 0x80 >> p (40_pixel.md R132). -/
def pixelMask (x : Int) : Byte := 0x80#8 >>> (x.toNat % 8)

/-- SliceOrder(s)[k], where the slice has a k-th byte (42_scan.md R201). -/
def Config.sliceOffset (c : Config) (s : BitVec 2) (k : Nat) : Option Nat :=
  (c.sliceOrder[s.toNat]'s.isLt)[k]?

end Sys2Proof
end

