-- ==== Sys2Proof/Machine/Flags.lean ====
section
/-! DEFINITION. The STATUS register's view of the state (10_state.md R37 to R47), and the sticky fault flags. -/

namespace Sys2Proof.Machine

/-- STATUS.DE_BUSY: the DE has micro-operations left (10_state.md R42, log 7). -/
def deBusy (s : State) : Bool := !s.deOps.isEmpty

/-- STATUS.SE_BUSY: the SE is not idle (10_state.md R43, log 8). -/
def seBusy (s : State) : Bool :=
  match s.se with
  | .idle => false
  | _ => true

/-- The 16-bit STATUS value (10_state.md R37): bits 3:2 are CURSOR itself (R40), bits 7 and 15:11 read 0 (R47). -/
def status (s : State) : BitVec 16 :=
  (0#5 ++ BitVec.ofBool s.fIllarg ++ BitVec.ofBool s.fIllmode ++ BitVec.ofBool s.fIllcmd ++ 0#1 ++
    BitVec.ofBool (seBusy s) ++ BitVec.ofBool (deBusy s) ++ BitVec.ofBool s.skip ++ s.cursor ++
    BitVec.ofBool s.rdv ++ BitVec.ofBool s.pix : BitVec (5 + 1 + 1 + 1 + 1 + 1 + 1 + 1 + 2 + 1 + 1))

/-- "The port sets the sticky STATUS flag F to 1" (60_exceptions.md R240, R241). -/
def setFlag (f : FaultFlag) (s : State) : State :=
  match f with
  | .illcmd => { s with fIllcmd := true }
  | .illmode => { s with fIllmode := true }
  | .illarg => { s with fIllarg := true }

/-- The value of a fault flag (10_state.md R44 to R46). -/
def flag (f : FaultFlag) (s : State) : Bool :=
  match f with
  | .illcmd => s.fIllcmd
  | .illmode => s.fIllmode
  | .illarg => s.fIllarg

end Sys2Proof.Machine
end

