-- ==== Sys2Proof/Machine/Ops.lean ====
section
/-! DEFINITION. The operations that the meanings share: the framebuffer's byte, the pixel blend and the DE's three
micro-operations, the port's acceptance, raising a fault, starting a drawing, an output event, and the two draws from
outside. -/

namespace Sys2Proof.Machine

/-- What one step of one agent answers. -/
abbrev Result := Host.Outcome State Fault Refusal

/-- FB[i], read (00_scope.md R14). -/
def Memory.read : Memory → Nat → Byte
  | [], _ => Memory.unlisted
  | c :: m, a => if a = c.1 then c.2 else Memory.read m a

/-- FB[i] <- b (00_scope.md R14), in the canonical form (log 9). -/
def Memory.write : Memory → Nat → Byte → Memory
  | [], a, b => if b = Memory.unlisted then [] else [(a, b)]
  | c :: m, a, b =>
    if a < c.1 then (if b = Memory.unlisted then c :: m else (a, b) :: c :: m)
    else if a = c.1 then (if b = Memory.unlisted then m else (a, b) :: m)
    else c :: Memory.write m a b

/-- blend(mode, e, v): the new bit from the existing bit e and the requested bit v (40_pixel.md R134). INVERSE "is the
same function as NORMAL" (R135). -/
def blend (mode : Mode) (e v : Bool) : Bool :=
  match mode with
  | .normal => v
  | .inverse => v
  | .toggle => e ^^ v
  | .or => e || v
  | .nor => !(e || v)

/-- The pixel's bit as it stands: (FB[off] & m) != 0 (40_pixel.md R136). -/
def pixelBit (c : Config) (fb : Memory) (x y : Int) : Bool :=
  decide (fb.read (c.offset x y) &&& pixelMask x ≠ 0)

/-- The framebuffer with one pixel set to `n`: FB[off] | m, or FB[off] & ~m (40_pixel.md R136). -/
def putPixel (c : Config) (fb : Memory) (x y : Int) (n : Bool) : Memory :=
  let off := c.offset x y
  let old := fb.read off
  fb.write off (if n then old ||| pixelMask x else old &&& ~~~(pixelMask x))

/-- PIXOP's framebuffer: clipped when not InRange, else one bit blended (40_pixel.md R136). -/
def pixopFb (c : Config) (fb : Memory) (x y : Int) (mode : Mode) (v : Bool) : Memory :=
  if c.inRange x y then putPixel c fb x y (blend mode (pixelBit c fb x y) v) else fb

/-- PIXOP(x, y, mode, v) (40_pixel.md R136). -/
def pixop (x y : Int) (mode : Mode) (v : Bool) (s : State) : Result :=
  .next { s with fb := pixopFb s.cfg s.fb x y mode v }

/-- RDPIX(x, y) (40_pixel.md R137). -/
def rdpix (x y : Int) (s : State) : Result :=
  if s.cfg.inRange x y then .next { s with pix := pixelBit s.cfg s.fb x y, rdv := true }
  else .next { s with pix := false, rdv := false }

/-- FILL(i, b) (40_pixel.md R140). No byte stands outside 0..FB_BYTES-1 (20_memory.md R70; log 10). -/
def fill (i : Nat) (b : Byte) (s : State) : Result :=
  if i < s.cfg.fbBytes then .next { s with fb := s.fb.write i b } else .fault (.noSuchByte i)

/-- One micro-operation of the DE (20_memory.md R79). -/
def perform (op : MicroOp) (s : State) : Result :=
  match op with
  | .pixop x y mode v => pixop x y mode v s
  | .rdpix x y => rdpix x y s
  | .fill i b => fill i b s

/-- "Accepting empties the slot and completes the host's write" (30_encoding.md R111); the host's index "advances by one
when the port accepts a word" (10_state.md R31). -/
def accept (s : State) : State := { s with slot := none, hostIndex := s.hostIndex + 1 }

/-- raise Fault(F): the port sets the flag and consumes the word; "Nothing else happens" (60_exceptions.md R240). -/
def raiseFault (f : FaultFlag) (s : State) : State := setFlag f (accept s)

/-- A word the port does not accept in this step: "While w waits, the slot stays full" (30_encoding.md R111; log 6). -/
def wait (s : State) : Result := .next s

/-- Execute(op) for a DE command: accepted when the DE is idle; the DE becomes busy(ops) (30_encoding.md R111). -/
def startDrawing (ops : List MicroOp) (s : State) : Result :=
  if deBusy s then wait s else .next { accept s with deOps := ops }

/-- Check 3 of 30_encoding.md R110: a command that takes a mode, with MODE 5, 6 or 7, raises F_ILLMODE. -/
def startDrawingIn (field : BitVec 3) (ops : Mode → List MicroOp) (s : State) : Result :=
  match Mode.ofField field with
  | none => .next (raiseFault .illmode s)
  | some mode => startDrawing (ops mode) s

/-- emit E: append one event to the history (00_scope.md R14, 10_state.md R53). -/
def emit (e : Event) (s : State) : State := { s with events := s.events ++ [e] }

/-- sample BUS_CLAIMED: the environment's draw and the state with that draw used up (42_scan.md R203; log 2). -/
def drawBus (s : State) : Bool × State :=
  match s.busDraws with
  | b :: rest => (b, { s with busDraws := rest })
  | [] => (Config.busClaimed s.samples, { s with samples := s.samples + 1 })

/-- The agent that is to move, and the state with that turn used up (20_memory.md R83; log 1). -/
def drawTurn (s : State) : Agent × State :=
  match s.schedule with
  | a :: rest => (a, { s with schedule := rest })
  | [] => (Config.freeTurn s.turns, { s with turns := s.turns + 1 })

end Sys2Proof.Machine
end

