-- ==== Sys2Proof/Machine/Control.lean ====
section
/-! DEFINITION. The control commands NOP and FENCE (43_control.md R230, R231). -/

namespace Sys2Proof.Machine

/-- NOP: "always accepted. No effect" (30_encoding.md R111, 43_control.md R230). -/
def execNop (s : State) : Result := .next (accept s)

/-- FENCE: "accepted when the DE and the SE are both idle. No effect" (30_encoding.md R111, 43_control.md R231). -/
def execFence (s : State) : Result := if deBusy s || seBusy s then wait s else .next (accept s)

end Sys2Proof.Machine
end

