-- ==== Sys2Proof/Machine/Pixel.lean ====
section
/-! DEFINITION. The framebuffer commands WRITE_PIXEL, READ_PIXEL and CLEAR (40_pixel.md R138 to R140). -/

namespace Sys2Proof.Machine

/-- ops = [PIXOP(x, y, mode, v)] (40_pixel.md R138). -/
def writePixelOps (x y : Int) (v : Bool) (mode : Mode) : List MicroOp := [.pixop x y mode v]

/-- ops = [RDPIX(x, y)] (40_pixel.md R139). -/
def readPixelOps (x y : Int) : List MicroOp := [.rdpix x y]

/-- ops = [FILL(0, fill), ..., FILL(FB_BYTES-1, fill)] (40_pixel.md R140). -/
def clearOps (c : Config) (b : Byte) : List MicroOp := (List.range c.fbBytes).map fun i => .fill i b

/-- WRITE_PIXEL (40_pixel.md R138). -/
def execWritePixel (x y : Int) (mode : BitVec 3) (v : Bool) (s : State) : Result :=
  startDrawingIn mode (writePixelOps x y v) s

/-- READ_PIXEL (40_pixel.md R139). -/
def execReadPixel (x y : Int) (s : State) : Result := startDrawing (readPixelOps x y) s

/-- CLEAR (40_pixel.md R140). -/
def execClear (b : Byte) (s : State) : Result := startDrawing (clearOps s.cfg b) s

end Sys2Proof.Machine
end

