-- ==== Sys2Proof/Machine/Primitives.lean ====
section
/-! DEFINITION. The drawing primitives (41_primitives.md): each command's pixels in the order of its pseudocode, and
the command itself. Arithmetic is on mathematical integers (R161). -/

namespace Sys2Proof.Machine

/-- sign(d) is +1 for d ≥ 0 and -1 for d < 0 (41_primitives.md R161). -/
def sign (d : Int) : Int := if 0 ≤ d then 1 else -1

/-- The shallow branch's loop (41_primitives.md R162). "while x != x2" runs dx times, since each round moves x by sx
towards x2; the first argument counts them (log 16). -/
def shallowLoop (sx sy dx dy : Int) : Nat → Int → Int → Int → List (Int × Int)
  | 0, _, _, _ => []
  | n + 1, x, y, f =>
    let y' := if 0 ≤ f then y + sy else y
    let f' := if 0 ≤ f then f - 2 * dx else f
    (x + sx, y') :: shallowLoop sx sy dx dy n (x + sx) y' (f' + 2 * dy)

/-- The steep branch's loop (41_primitives.md R162), which runs dy times (log 16). -/
def steepLoop (sx sy dx dy : Int) : Nat → Int → Int → Int → List (Int × Int)
  | 0, _, _, _ => []
  | n + 1, x, y, f =>
    let x' := if 0 ≤ f then x + sx else x
    let f' := if 0 ≤ f then f - 2 * dy else f
    (x', y + sy) :: steepLoop sx sy dx dy n x' (y + sy) (f' + 2 * dx)

/-- The pixels of LINE(x1, y1, x2, y2) in append order (41_primitives.md R162). -/
def linePixels (x1 y1 x2 y2 : Int) : List (Int × Int) :=
  let dx : Int := (x2 - x1).natAbs
  let dy : Int := (y2 - y1).natAbs
  let sx := sign (x2 - x1)
  let sy := sign (y2 - y1)
  (x1, y1) ::
    if dy < dx then shallowLoop sx sy dx dy (x2 - x1).natAbs x1 y1 (2 * dy - dx)
    else steepLoop sx sy dx dy (y2 - y1).natAbs x1 y1 (2 * dx - dy)

/-- The pixels of BOX: four LINEs of the normalised rectangle (41_primitives.md R165). -/
def boxPixels (x1 y1 x2 y2 : Int) : List (Int × Int) :=
  let xa := min x1 x2
  let xb := max x1 x2
  let ya := min y1 y2
  let yb := max y1 y2
  linePixels xa ya xb ya ++ linePixels xb ya xb yb ++ linePixels xb yb xa yb ++ linePixels xa yb xa ya

/-- The integers from `a` to `b`, ascending. -/
def intRange (a b : Int) : List Int := (List.range (b - a + 1).toNat).map fun k => a + (k : Int)

/-- The pixels of FILLED_BOX: rows top to bottom, each left to right (41_primitives.md R167). -/
def filledBoxPixels (x1 y1 x2 y2 : Int) : List (Int × Int) :=
  (intRange (min y1 y2) (max y1 y2)).flatMap fun y =>
    (intRange (min x1 x2) (max x1 x2)).map fun x => (x, y)

/-- PLOT8(x, y) about the centre (41_primitives.md R171). -/
def plot8 (xc yc x y : Int) : List (Int × Int) :=
  if x = 0 then [(xc, yc + y), (xc, yc - y), (xc + y, yc), (xc - y, yc)]
  else if x = y then [(xc + x, yc + y), (xc - x, yc + y), (xc + x, yc - y), (xc - x, yc - y)]
  else if x < y then
    [(xc + x, yc + y), (xc - x, yc + y), (xc + x, yc - y), (xc - x, yc - y),
     (xc + y, yc + x), (xc - y, yc + x), (xc + y, yc - x), (xc - y, yc - x)]
  else []

/-- The circle's loop (41_primitives.md R170); each round adds 1 to x and never adds to y, so r rounds are enough and
the first argument bounds them (log 16). -/
def circleLoop (xc yc : Int) : Nat → Int → Int → Int → List (Int × Int)
  | 0, _, _, _ => []
  | n + 1, x, y, p =>
    if x < y then
      let x' := x + 1
      let y' := if p < 0 then y else y - 1
      let p' := if p < 0 then p + 2 * x' + 1 else p + 2 * (x' - y') + 1
      plot8 xc yc x' y' ++ circleLoop xc yc n x' y' p'
    else []

/-- The pixels of CIRCLE: none for r < 0 (41_primitives.md R168), one for r = 0 (R169), else R170. -/
def circlePixels (xc yc r : Int) : List (Int × Int) :=
  if r < 0 then []
  else if r = 0 then [(xc, yc)]
  else plot8 xc yc 0 r ++ circleLoop xc yc r.toNat 0 r (1 - r)

/-- PIX for each pixel: PIXOP(x, y, mode, 1) (41_primitives.md R160, R161). -/
def pixOps (pixels : List (Int × Int)) (mode : Mode) : List MicroOp :=
  pixels.map fun p => .pixop p.1 p.2 mode true

/-- One PIXOP for each glyph pixel, row by row, set bits and unset bits alike (41_primitives.md R174). -/
def glyphOps (f : Font) (bm : List (List Bool)) (x y : Int) (mode : Mode) : List MicroOp :=
  (List.range f.height).flatMap fun (row : Nat) =>
    (List.range f.width).map fun (col : Nat) =>
      .pixop (x + (col : Int)) (y + (row : Int)) mode (glyphBit bm row col)

/-- One NORMAL PIXOP for each panel pixel, row by row (41_primitives.md R177). -/
def patternOps (c : Config) (p : Pattern) : List MicroOp :=
  (List.range c.height).flatMap fun (y : Nat) =>
    (List.range c.width).map fun (x : Nat) => .pixop (x : Int) (y : Int) .normal (p.pixel x y)

/-- LINE (41_primitives.md R162). -/
def execLine (x1 y1 x2 y2 : Int) (mode : BitVec 3) (s : State) : Result :=
  startDrawingIn mode (pixOps (linePixels x1 y1 x2 y2)) s

/-- BOX (41_primitives.md R165). -/
def execBox (x1 y1 x2 y2 : Int) (mode : BitVec 3) (s : State) : Result :=
  startDrawingIn mode (pixOps (boxPixels x1 y1 x2 y2)) s

/-- FILLED_BOX (41_primitives.md R167). -/
def execFilledBox (x1 y1 x2 y2 : Int) (mode : BitVec 3) (s : State) : Result :=
  startDrawingIn mode (pixOps (filledBoxPixels x1 y1 x2 y2)) s

/-- CIRCLE (41_primitives.md R168 to R171). -/
def execCircle (xc yc r : Int) (mode : BitVec 3) (s : State) : Result :=
  startDrawingIn mode (pixOps (circlePixels xc yc r)) s

/-- GLYPH (41_primitives.md R173, R174): F_ILLMODE before F_ILLARG (30_encoding.md R110, checks 3 and 5). -/
def execGlyph (x y : Int) (code : Byte) (g : Geometry) (mode : BitVec 3) (s : State) : Result :=
  match Mode.ofField mode, s.cfg.glyph g code with
  | none, _ => .next (raiseFault .illmode s)
  | some _, none => .next (raiseFault .illarg s)
  | some m, some bm => startDrawing (glyphOps (s.cfg.font g) bm x y m) s

/-- TEST_PATTERN (41_primitives.md R177); an id over 3 raises F_ILLARG (30_encoding.md R110, check 4). -/
def execTestPattern (id : Byte) (s : State) : Result :=
  match Pattern.ofId id with
  | none => .next (raiseFault .illarg s)
  | some p => startDrawing (patternOps s.cfg p) s

end Sys2Proof.Machine
end

