-- ==== Sys2Proof/Machine/Scan.lean ====
section
/-! DEFINITION. SCAN_ONCE and the SE's steps (42_scan.md R202 to R205). -/

namespace Sys2Proof.Machine

/-- SCAN_ONCE: "accepted when the SE is idle. Effect: the SE becomes busy at phase sample" (30_encoding.md R111). -/
def execScanOnce (s : State) : Result :=
  if seBusy s then wait s else .next { accept s with se := .sample }

/-- Step 0: sample BUS_CLAIMED; a claimed bus skips the scan, a free one starts it at CURSOR (42_scan.md R202, R203). -/
def seSample (claimed : Bool) (s : State) : State :=
  if claimed then { s with skip := true, se := .idle }
  else { s with skip := false, se := .transfer s.cursor .blank }

/-- Step 3 for one k: read FB[SliceOrder(s)[k]] and emit it (42_scan.md R202); after the last k comes latch. -/
def seShift (sl : BitVec 2) (k : Nat) (s : State) : Result :=
  match s.cfg.sliceOffset sl k with
  | none => .fault (.noSuchShift k)
  | some off =>
    if off < s.cfg.fbBytes then
      .next { emit (.shift (s.fb.read off)) s with
        se := .transfer sl (if k + 1 < s.cfg.sliceBytes then .shift (k + 1) else .latch) }
    else .fault (.noSuchByte off)

/-- One step of a scan that goes on, steps 1 to 6 (42_scan.md R202, R205). -/
def seTransfer (sl : BitVec 2) (phase : Phase) (s : State) : Result :=
  match phase with
  | .blank => .next { emit (.oe false) s with rowOe := false, se := .transfer sl .select }
  | .select => .next { emit (.sel sl) s with rowSel := sl, se := .transfer sl (.shift 0) }
  | .shift k => seShift sl k s
  | .latch => .next { emit .latch s with se := .transfer sl .enable }
  | .enable => .next { emit (.oe true) s with rowOe := true, se := .transfer sl .advance }
  | .advance => .next { s with cursor := sl + 1, se := .idle }

/-- One step of the SE (10_state.md R55); none while it is idle. -/
def seStep (s : State) : Option Result :=
  match s.se with
  | .idle => none
  | .sample => some (.next (seSample (drawBus s).1 (drawBus s).2))
  | .transfer sl phase => some (seTransfer sl phase s)

end Sys2Proof.Machine
end

