-- ==== Sys2Proof/Machine/Dispatch.lean ====
section
/-! DEFINITION. The meaning of each command: what the port does with it in one step (30_encoding.md R111). -/

namespace Sys2Proof.Machine

def exec (i : Instr) (s : State) : Host.Outcome State Fault Refusal :=
  match i with
  | .nop => Sys2Proof.Machine.execNop s
  | .writePixel x y mode v => Sys2Proof.Machine.execWritePixel x y mode v s
  | .readPixel x y => Sys2Proof.Machine.execReadPixel x y s
  | .clear fill => Sys2Proof.Machine.execClear fill s
  | .line x1 y1 x2 y2 mode => Sys2Proof.Machine.execLine x1 y1 x2 y2 mode s
  | .box x1 y1 x2 y2 mode => Sys2Proof.Machine.execBox x1 y1 x2 y2 mode s
  | .filledBox x1 y1 x2 y2 mode => Sys2Proof.Machine.execFilledBox x1 y1 x2 y2 mode s
  | .circle xc yc r mode => Sys2Proof.Machine.execCircle xc yc r mode s
  | .glyph x y code g mode => Sys2Proof.Machine.execGlyph x y code g mode s
  | .testPattern id => Sys2Proof.Machine.execTestPattern id s
  | .scanOnce => Sys2Proof.Machine.execScanOnce s
  | .fence => Sys2Proof.Machine.execFence s

end Sys2Proof.Machine
end

