-- ==== Sys2Proof/Machine/Agents.lean ====
section
/-! DEFINITION. One step of each agent (00_scope.md R5): the port, the DE and the host; the SE's stands in Scan.lean.
An agent that cannot move answers none. -/

namespace Sys2Proof.Machine

/-- The acceptance step (30_encoding.md R111): a word that is no command raises F_ILLCMD (R107); a command's own meaning
says whether it is accepted, that is whether the slot is emptied (log 6). -/
def portStep (s : State) : Option Result :=
  match s.slot with
  | none => none
  | some w =>
    match decode w with
    | .error _ => some (.next (raiseFault .illcmd s))
    | .ok i =>
      match exec i s with
      | .next t => if t.slot.isNone then some (.next t) else none
      | r => some r

/-- "Each DE step performs the head of ops and removes it" (10_state.md R54). -/
def deStep (s : State) : Option Result :=
  match s.deOps with
  | [] => none
  | op :: rest => some (perform op { s with deOps := rest })

/-- RESET: "one atomic step that replaces the whole state" of the block (70_reset_and_hazards.md R280). What stands
outside the block, the host's own and the draws to come, is kept (log 12). -/
def resetBlock (s : State) : State :=
  { State.resetOf s.cfg with
    hostIndex := s.hostIndex
    host := s.host
    statusReads := s.statusReads
    schedule := s.schedule
    turns := s.turns
    busDraws := s.busDraws
    samples := s.samples }

/-- The host's next move (60_exceptions.md R258); a write waits for an empty slot (10_state.md R50), and WAITIDLE for
the write before it to complete and STATUS bits 6:5 to read 0 (30_encoding.md R114; log 13). -/
def hostStep (s : State) : Option State :=
  match s.host with
  | [] => none
  | .write w :: rest => if s.slot.isNone then some { s with slot := some w, host := rest } else none
  | .readStatus :: rest => some { s with statusReads := s.statusReads ++ [status s], host := rest }
  | .waitIdle :: rest =>
    if s.slot.isNone && (status s).extractLsb' 5 2 == 0#2 then some { s with host := rest } else none
  | .reset :: rest => some { resetBlock s with host := rest }

/-- One step of an agent, where it can move. -/
def agentStep (a : Agent) (s : State) : Option Result :=
  match a with
  | .port => portStep s
  | .de => deStep s
  | .se => seStep s
  | .host => (hostStep s).map .next

/-- The agents that can move. -/
def enabled (s : State) : List Agent := [Agent.port, .de, .se, .host].filter fun a => (agentStep a s).isSome

/-- The agent that moves: the only one that can; else the one that is to move, where it can; else the first that can. -/
def pick (want : Agent) : List Agent → Option Agent
  | [] => none
  | [a] => some a
  | a :: rest => some (if want ∈ a :: rest then want else a)

/-- The machine's step: a turn is taken and one agent that can move does; where none can, nothing happens (log 1, log 19). -/
def moveOne (s : State) : Result :=
  match pick (drawTurn s).1 (enabled (drawTurn s).2) with
  | none => .next s
  | some a => (agentStep a (drawTurn s).2).getD (.next s)

/-- The word for the port's next acceptance, and the port's turn (30_encoding.md R111; log 3). -/
def placeWord (w : Word) (s : State) : State := { s with slot := some w, schedule := .port :: s.schedule }

end Sys2Proof.Machine
end

