-- ==== Sys2Proof/Machine/Step.lean ====
section
/-! DEFINITION. The machine's step: one atomic step of one agent ("Every run of the block is one total order of atomic
steps of the host, the DE and the SE", 20_memory.md R83). -/

namespace Sys2Proof.Machine

/-- One step: a turn is taken, and one agent that can move does (20_memory.md R83; log 1). -/
def step (s : State) : Host.Outcome State Fault Refusal := moveOne s

/-- The state in which the port's slot holds the instruction whose table bits are `w`, with the port to move. -/
def State.withFetchWord (s : State) (nbits w : Nat) : State := placeWord (tableWord nbits w) s

end Sys2Proof.Machine
end

