-- ==== Sys2Proof/Machine/Assembler.lean ====
section
/-! DEFINITION. The textual syntax of 30_encoding.md R113 and the pseudo-instructions of R114: one line of text to a
command, a raw word, or a host-side operation. What R113 leaves open of the syntax is log 21's. -/

namespace Sys2Proof

/-- Why a line is refused: "An assembler refuses any operand out of range. It never truncates" (30_encoding.md R113). -/
inductive AsmError where
  | unknownMnemonic
  | badOperands
  deriving DecidableEq, Repr

/-- What one line of text stands for (30_encoding.md R113, R114). -/
inductive AsmItem where
  | command (i : Instr)
  | raw (w : Word)
  | waitIdle
  | readStatus
  deriving DecidableEq, Repr

/-- The pseudo-instructions (30_encoding.md R114) and the raw-word directive (R113). -/
inductive Pseudo where
  | setpix | clrpix | flippix | cls | fillscr | waitIdle | readStatus | word
  deriving DecidableEq, Repr

/-- A space or a tab (log 21). -/
def isBlankChar (c : Char) : Bool := c == ' ' || c == '\t'

/-- The text without blanks at its two ends. -/
def trimBlanks (cs : List Char) : List Char := ((cs.dropWhile isBlankChar).reverse.dropWhile isBlankChar).reverse

/-- The value of a digit in base ten or sixteen. -/
def digitValue (base : Nat) (c : Char) : Option Nat :=
  let n := c.toNat
  let v := if 48 ≤ n ∧ n ≤ 57 then some (n - 48)
    else if 65 ≤ n ∧ n ≤ 70 then some (n - 55)
    else if 97 ≤ n ∧ n ≤ 102 then some (n - 87)
    else none
  v.filter (· < base)

/-- A number's digits read from the most significant one on; `acc` is what came before. -/
def digitsValue (base : Nat) : Nat → List Char → Option Nat
  | acc, [] => some acc
  | acc, c :: cs =>
    match digitValue base c with
    | some d => digitsValue base (acc * base + d) cs
    | none => none

/-- A number of at least one digit. -/
def natOperand (base : Nat) (cs : List Char) : Option Nat := if cs.isEmpty then none else digitsValue base 0 cs

/-- "Numbers are decimal (an optional leading `-`) or `0x` hexadecimal" (30_encoding.md R113). -/
def numberOperand : List Char → Option Int
  | '0' :: 'x' :: cs => (natOperand 16 cs).map Int.ofNat
  | '-' :: cs => (natOperand 10 cs).map fun n => -Int.ofNat n
  | cs => (natOperand 10 cs).map Int.ofNat

/-- "Coordinates and the radius must lie in [-2048, 2047]" (30_encoding.md R113). -/
def coordOperand (cs : List Char) : Option Int := (numberOperand cs).filter coordOk

/-- "Byte operands must lie in [0, 255]" (30_encoding.md R113). -/
def byteOperand (cs : List Char) : Option Byte :=
  match numberOperand cs with
  | some n => if 0 ≤ n ∧ n ≤ 255 then some (BitVec.ofInt 8 n) else none
  | none => none

/-- V is 0 or 1 (30_encoding.md R113). -/
def bitOperand (cs : List Char) : Option Bool :=
  match numberOperand cs with
  | some n => if n = 0 then some false else if n = 1 then some true else none
  | none => none

/-- A name of a list, or a number below the list's length (30_encoding.md R113). -/
def nameOperand (names : List String) (cs : List Char) : Option Nat :=
  match names.findIdx? (fun s => s.toList == cs) with
  | some k => some k
  | none =>
    match numberOperand cs with
    | some n => if 0 ≤ n ∧ n < (names.length : Int) then some n.toNat else none
    | none => none

/-- "`mode` is one of `NORMAL`, `INVERSE`, `TOGGLE`, `OR`, `NOR`, or a number 0..4" (30_encoding.md R113). -/
def modeOperand (cs : List Char) : Option (BitVec 3) :=
  (nameOperand ["NORMAL", "INVERSE", "TOGGLE", "OR", "NOR"] cs).map (BitVec.ofNat 3)

/-- `COMPACT` = 0, `TALL` = 1 (30_encoding.md R113). -/
def geometryOperand (cs : List Char) : Option Geometry :=
  (nameOperand ["COMPACT", "TALL"] cs).map fun k => if k = 0 then .compact else .tall

/-- `ALT_0` = 0, `ALT_1` = 1, `STRIPE_0` = 2, `STRIPE_1` = 3 (30_encoding.md R113). -/
def patternOperand (cs : List Char) : Option Byte :=
  (nameOperand ["ALT_0", "ALT_1", "STRIPE_0", "STRIPE_1"] cs).map (BitVec.ofNat 8)

/-- The mnemonics of the commands (30_encoding.md R106, R113). -/
def opNames : List (String × Op) :=
  [("NOP", .nop), ("WRITE_PIXEL", .writePixel), ("READ_PIXEL", .readPixel), ("CLEAR", .clear), ("LINE", .line),
   ("BOX", .box), ("FILLED_BOX", .filledBox), ("CIRCLE", .circle), ("GLYPH", .glyph), ("TEST_PATTERN", .testPattern),
   ("SCAN_ONCE", .scanOnce), ("FENCE", .fence)]

/-- The names of the pseudo-instructions (30_encoding.md R114) and of the raw-word directive (R113). -/
def pseudoNames : List (String × Pseudo) :=
  [("SETPIX", .setpix), ("CLRPIX", .clrpix), ("FLIPPIX", .flippix), ("CLS", .cls), ("FILLSCR", .fillscr),
   ("WAITIDLE", .waitIdle), ("RDSTATUS", .readStatus), (".word", .word)]

/-- The entry of a name. -/
def lookupName {α : Type} (names : List (String × α)) (cs : List Char) : Option α :=
  (names.find? (fun e => e.1.toList == cs)).map (·.2)

/-- The forms of 30_encoding.md R113. -/
def assembleOp (op : Op) (args : List (List Char)) : Option Instr :=
  match op, args with
  | .nop, [] => some .nop
  | .writePixel, [x, y, m, v] => do
    return .writePixel (← coordOperand x) (← coordOperand y) (← modeOperand m) (← bitOperand v)
  | .readPixel, [x, y] => do return .readPixel (← coordOperand x) (← coordOperand y)
  | .clear, [b] => do return .clear (← byteOperand b)
  | .line, [x1, y1, x2, y2, m] => do
    return .line (← coordOperand x1) (← coordOperand y1) (← coordOperand x2) (← coordOperand y2) (← modeOperand m)
  | .box, [x1, y1, x2, y2, m] => do
    return .box (← coordOperand x1) (← coordOperand y1) (← coordOperand x2) (← coordOperand y2) (← modeOperand m)
  | .filledBox, [x1, y1, x2, y2, m] => do
    return .filledBox (← coordOperand x1) (← coordOperand y1) (← coordOperand x2) (← coordOperand y2) (← modeOperand m)
  | .circle, [x, y, r, m] => do
    return .circle (← coordOperand x) (← coordOperand y) (← coordOperand r) (← modeOperand m)
  | .glyph, [x, y, code, g, m] => do
    return .glyph (← coordOperand x) (← coordOperand y) (← byteOperand code) (← geometryOperand g) (← modeOperand m)
  | .testPattern, [id] => do return .testPattern (← patternOperand id)
  | .scanOnce, [] => some .scanOnce
  | .fence, [] => some .fence
  | _, _ => none

/-- The expansions of 30_encoding.md R114, and `.word 0x...` (R113): a hexadecimal number of at most 64 bits. -/
def assemblePseudo (p : Pseudo) (args : List (List Char)) : Option AsmItem :=
  match p, args with
  | .setpix, [x, y] => do return .command (Instr.setpix (← coordOperand x) (← coordOperand y))
  | .clrpix, [x, y] => do return .command (Instr.clrpix (← coordOperand x) (← coordOperand y))
  | .flippix, [x, y] => do return .command (Instr.flippix (← coordOperand x) (← coordOperand y))
  | .cls, [] => some (.command Instr.cls)
  | .fillscr, [] => some (.command Instr.fillscr)
  | .waitIdle, [] => some .waitIdle
  | .readStatus, [] => some .readStatus
  | .word, ['0' :: 'x' :: ds] =>
    match natOperand 16 ds with
    | some n => if n < 2 ^ 64 then some (.raw (BitVec.ofNat 64 n)) else none
    | none => none
  | _, _ => none

/-- The operands of a line: the text after the mnemonic, cut at the commas (30_encoding.md R113). -/
def operandTexts (cs : List Char) : List (List Char) :=
  if (trimBlanks cs).isEmpty then [] else (cs.splitOn ',').map trimBlanks

/-- One line: "One command per line, mnemonic first, operands separated by commas", "`;` starts a comment"
(30_encoding.md R113). A line with neither is `none`. -/
def assembleLine (cs : List Char) : Except AsmError (Option AsmItem) :=
  let text := trimBlanks (cs.takeWhile (· != ';'))
  let name := text.takeWhile (fun c => !isBlankChar c)
  let args := operandTexts (text.dropWhile (fun c => !isBlankChar c))
  if text.isEmpty then .ok none
  else
    match lookupName opNames name, lookupName pseudoNames name with
    | some op, _ =>
      match assembleOp op args with
      | some i => .ok (some (.command i))
      | none => .error .badOperands
    | none, some p =>
      match assemblePseudo p args with
      | some item => .ok (some item)
      | none => .error .badOperands
    | none, none => .error .unknownMnemonic

/-- The host move of an assembled line: command words are written, the host-side operations are the host's own moves
(30_encoding.md R114). -/
def AsmItem.toMove : AsmItem → Machine.HostMove
  | .command i => .write (encode i)
  | .raw w => .write w
  | .waitIdle => .waitIdle
  | .readStatus => .readStatus

end Sys2Proof
end

