-- ==== Sys2Proof/Safety.lean ====
section
/-! DEFINITION. The terms claims use: the verdict of a word and the micro-operations of a command (30_encoding.md R110,
10_state.md R54), the end of a run and its observation (70_reset_and_hazards.md R291), faulted runs (60_exceptions.md
R241), the state invariant, the shape of the event history, and the work a state has left. -/

namespace Sys2Proof

/-- What the port does with a word (30_encoding.md R110). -/
inductive Verdict where
  | fault (f : Machine.FaultFlag)
  | execute (op : Op)
  deriving DecidableEq, Repr

/-- The bits of a format's reserved fields: its fixed-bit mask without OPC (30_encoding.md R104). -/
def Op.reserved (op : Op) : Word := op.format.mask &&& 0x0FFFFFFFFFFFFFFF

/-- The six commands that take a mode (30_encoding.md R110, check 3). -/
def Op.takesMode : Op → Bool
  | .writePixel | .line | .box | .filledBox | .circle | .glyph => true
  | _ => false

/-- The nine commands that the DE executes (30_encoding.md R106, column "agent"). -/
def Op.isDrawing : Op → Bool
  | .nop | .scanOnce | .fence => false
  | _ => true

/-- The six checks of 30_encoding.md R110 in their order, on the bits of the word. -/
def verdict (c : Config) (w : Word) : Verdict :=
  match Op.ofCode (opcField w) with
  | none => .fault .illcmd
  | some op =>
    if w &&& op.reserved ≠ 0 then .fault .illcmd
    else if op.takesMode = true ∧ 5 ≤ (modeField w).toNat then .fault .illmode
    else if op = .testPattern ∧ 3 < (auxField w).toNat then .fault .illarg
    else if op = .glyph ∧ c.glyph (Geometry.ofBit (vField w)) (auxField w) = none then .fault .illarg
    else .execute op

open Machine

/-- ops(w): the micro-operations of an accepted command, "a pure function of its command word and the configuration"
(10_state.md R54); none for a command that the DE does not execute or the port refuses. -/
def Instr.microOps (c : Config) : Instr → List MicroOp
  | .writePixel x y mode v => ((Mode.ofField mode).map (writePixelOps x y v)).getD []
  | .readPixel x y => readPixelOps x y
  | .clear b => clearOps c b
  | .line x1 y1 x2 y2 mode => ((Mode.ofField mode).map (pixOps (linePixels x1 y1 x2 y2))).getD []
  | .box x1 y1 x2 y2 mode => ((Mode.ofField mode).map (pixOps (boxPixels x1 y1 x2 y2))).getD []
  | .filledBox x1 y1 x2 y2 mode => ((Mode.ofField mode).map (pixOps (filledBoxPixels x1 y1 x2 y2))).getD []
  | .circle xc yc r mode => ((Mode.ofField mode).map (pixOps (circlePixels xc yc r))).getD []
  | .glyph x y code g mode =>
    match Mode.ofField mode, c.glyph g code with
    | some m, some bm => glyphOps (c.font g) bm x y m
    | _, _ => []
  | .testPattern id => ((Pattern.ofId id).map (patternOps c)).getD []
  | .nop => []
  | .scanOnce => []
  | .fence => []

namespace Machine

/-- A run with any fault flag set has faulted (60_exceptions.md R241). -/
def faulted (s : State) : Bool := s.fIllcmd || s.fIllmode || s.fIllarg

/-- The move writes a command word. -/
def HostMove.isWrite : HostMove → Bool
  | .write _ => true
  | .readStatus => false
  | .waitIdle => false
  | .reset => false

/-- A run's end: "the command holding slot is empty", "the host has no further word to write", "the DE is idle", "the SE
is idle" (70_reset_and_hazards.md R291). The host may still read STATUS, wait, or assert RESET (log 3). -/
def quiescent (s : State) : Bool :=
  s.slot.isNone && s.host.all (fun move => !move.isWrite) && !deBusy s && !seBusy s

/-- A run's end at which the host has no move of any kind left. -/
abbrev atRest (s : State) : Prop := quiescent s = true ∧ s.host = []

/-- Both engines are idle and the host has no move left: whatever word the slot holds is all there is to do. -/
abbrev quiet (s : State) : Prop := s.deOps = [] ∧ s.se = .idle ∧ s.host = []

/-- The observation at a run's end (70_reset_and_hazards.md R291). -/
structure Observation where
  fb     : List Byte
  cursor : BitVec 2
  status : BitVec 16
  rowOe  : Bool
  rowSel : BitVec 2
  events : List Event
  deriving DecidableEq, Repr

/-- What is observed of a state (70_reset_and_hazards.md R291). -/
def observe (s : State) : Observation where
  fb := (List.range s.cfg.fbBytes).map s.fb.read
  cursor := s.cursor
  status := status s
  rowOe := s.rowOe
  rowSel := s.rowSel
  events := s.events

/-- A micro-operation that names only framebuffer bytes that exist (20_memory.md R70). -/
abbrev MicroOp.ok (c : Config) : MicroOp → Prop
  | .fill i _ => i < c.fbBytes
  | .pixop _ _ _ _ => True
  | .rdpix _ _ => True

/-- The outputs in each phase of a scan of slice `sl` (42_scan.md R202): the cursor stands at the slice, the rows are
blank from step 1 to step 5 and ROW_SEL is the slice from step 2 on; k is below SLICE_BYTES (10_state.md R55). -/
abbrev Scan.ok (s : State) : Scan → Prop
  | .idle => True
  | .sample => True
  | .transfer sl .blank => s.cursor = sl
  | .transfer sl .select => s.cursor = sl ∧ s.rowOe = false
  | .transfer sl (.shift k) => s.cursor = sl ∧ s.rowOe = false ∧ s.rowSel = sl ∧ k < s.cfg.sliceBytes
  | .transfer sl .latch => s.cursor = sl ∧ s.rowOe = false ∧ s.rowSel = sl
  | .transfer sl .enable => s.cursor = sl ∧ s.rowOe = false ∧ s.rowSel = sl
  | .transfer sl .advance => s.cursor = sl ∧ s.rowOe = true ∧ s.rowSel = sl

/-- The state invariant: a legal configuration, a canonical framebuffer of bytes that exist, micro-operations that name
only such bytes, and outputs that fit the scan's phase. -/
structure State.Inv (s : State) : Prop where
  cfgOk    : s.cfg.wf
  fbOk     : s.fb.wf
  fbInside : ∀ c ∈ s.fb, c.1 < s.cfg.fbBytes
  opsOk    : ∀ op ∈ s.deOps, op.ok s.cfg
  scanOk   : s.se.ok s

/-- The events of one whole transfer of slice `sl` with the given bytes (42_scan.md R202, steps 1 to 5). -/
def transferEvents (sl : BitVec 2) (bytes : List Byte) : List Event :=
  [.oe false, .sel sl] ++ bytes.map .shift ++ [.latch, .oe true]

/-- The events of whole transfers one after the other, from slice `sl` on (42_scan.md R205, R206). -/
def transfersEvents : BitVec 2 → List (List Byte) → List Event
  | _, [] => []
  | sl, bytes :: rest => transferEvents sl bytes ++ transfersEvents (sl + 1) rest

/-- The events of the transfer in progress, given the bytes shifted so far (42_scan.md R202). -/
def partialEvents (bytes : List Byte) : Scan → List Event
  | .idle => []
  | .sample => []
  | .transfer _ .blank => []
  | .transfer _ .select => [.oe false]
  | .transfer sl (.shift _) => [.oe false, .sel sl] ++ bytes.map .shift
  | .transfer sl .latch => [.oe false, .sel sl] ++ bytes.map .shift
  | .transfer sl .enable => [.oe false, .sel sl] ++ bytes.map .shift ++ [.latch]
  | .transfer sl .advance => [.oe false, .sel sl] ++ bytes.map .shift ++ [.latch, .oe true]

/-- How many bytes the transfer in progress has shifted (42_scan.md R202). -/
def shiftedBytes (c : Config) : Scan → Nat
  | .transfer _ (.shift k) => k
  | .transfer _ .latch => c.sliceBytes
  | .transfer _ .enable => c.sliceBytes
  | .transfer _ .advance => c.sliceBytes
  | _ => 0

/-- The event history is whole transfers of consecutive slices from SCAN_START on, each of SLICE_BYTES bytes, then the
part of the transfer in progress; the cursor stands after the whole ones (42_scan.md R202, R205, R206). -/
def State.HistoryOk (s : State) : Prop :=
  ∃ (whole : List (List Byte)) (bytes : List Byte),
    (∀ b ∈ whole, b.length = s.cfg.sliceBytes) ∧
    s.cursor = s.cfg.scanStart + BitVec.ofNat 2 whole.length ∧
    bytes.length = shiftedBytes s.cfg s.se ∧
    s.events = transfersEvents s.cfg.scanStart whole ++ partialEvents bytes s.se

/-- The steps an accepted word takes its engine, an upper bound (70_reset_and_hazards.md R290). -/
def wordWork (c : Config) (w : Word) : Nat :=
  match decode w with
  | .ok .scanOnce => c.sliceBytes + 6
  | .ok i => (i.microOps c).length
  | .error _ => 0

/-- The steps the SE has left, at most (70_reset_and_hazards.md R290). -/
def scanWork (c : Config) : Scan → Nat
  | .idle => 0
  | .sample => c.sliceBytes + 6
  | .transfer _ .blank => c.sliceBytes + 5
  | .transfer _ .select => c.sliceBytes + 4
  | .transfer _ (.shift k) => c.sliceBytes - k + 3
  | .transfer _ .latch => 3
  | .transfer _ .enable => 2
  | .transfer _ .advance => 1

/-- The steps a host move can bring: the move itself and, for a write, the acceptance and the word's own work. -/
def moveWork (c : Config) : HostMove → Nat
  | .write w => 2 + wordWork c w
  | .readStatus => 1
  | .waitIdle => 1
  | .reset => 1

/-- The steps that all pending work can take, at most. -/
def workLeft (s : State) : Nat :=
  (s.host.map (moveWork s.cfg)).sum + (s.slot.map fun w => 1 + wordWork s.cfg w).getD 0 + s.deOps.length +
    scanWork s.cfg s.se

/-- The framebuffer after one micro-operation (20_memory.md R79). -/
def fbAfter (c : Config) (fb : Memory) : MicroOp → Memory
  | .pixop x y mode v => pixopFb c fb x y mode v
  | .rdpix _ _ => fb
  | .fill i b => fb.write i b

/-- The framebuffer after micro-operations, in their order (20_memory.md R83). -/
def fbAfterAll (c : Config) (fb : Memory) (ops : List MicroOp) : Memory := ops.foldl (fbAfter c) fb

/-- The state after n steps is t (Host.Core.run over `step`). -/
def runsTo (n : Nat) (s t : State) : Prop := Sys2Proof.core.run n s = .next t

end Machine

end Sys2Proof
end

