-- ==== Sys2Proof/Certificates/Slice0/Obligations.lean ====
section
/-! DEFINITION. The statements for the provers, in the order of the spec's files: encoding, state and reset, the port,
the commands, the DE's micro-operations, drawings run to their end, the scan, and the machine as a whole. -/

open Sys2Proof Sys2Proof.Machine

/-! ### Encoding (30_encoding.md, 20_memory.md R76) -/

/-- Decoding the word of any command that a word can hold gives the command back, every operand at every value. -/
def Obligations.DecodingAnEncodedCommandGivesItBack : Prop :=
  ∀ i : Instr, i.wf = true → decode (encode i) = .ok i

/-- A word that decodes is the word of the command it decodes to, and that command is well formed. -/
def Obligations.EncodingADecodedWordGivesItBack : Prop :=
  ∀ (w : Word) (i : Instr), decode w = .ok i → i.wf = true ∧ encode i = w

/-- The opcode table, row by row (R104, R106): "A word selects opcode k when (w & mask_k) == (k << 60)". -/
def Obligations.AWordSelectsTheRowItsMaskMatches : Prop :=
  ∀ row ∈ ([(.nop, 0x0, 0xFFFFFFFFFFFFFFFF), (.writePixel, 0x1, 0xF0FF000000FFFFFF),
      (.readPixel, 0x2, 0xFFFF000000FFFFFF), (.clear, 0x3, 0xFF00FFFFFFFFFFFF), (.line, 0x4, 0xF1FF000000000000),
      (.box, 0x5, 0xF1FF000000000000), (.filledBox, 0x6, 0xF1FF000000000000), (.circle, 0x7, 0xF1FF000000000FFF),
      (.glyph, 0x8, 0xF000000000FFFFFF), (.testPattern, 0x9, 0xFF00FFFFFFFFFFFF),
      (.scanOnce, 0xA, 0xFFFFFFFFFFFFFFFF), (.fence, 0xB, 0xFFFFFFFFFFFFFFFF)] : List (Op × Word × Word)),
    ∀ w : Word, (∃ i, decode w = .ok i ∧ i.op = row.1) ↔ w &&& row.2.2 = row.2.1 <<< 60

/-- The illegal words of R107, by name: OPC 0xC to 0xF; else a word that matches no row's mask. -/
def Obligations.IllegalWordsAreRejectedByName : Prop :=
  ∀ w : Word,
    (decode w = .error .reservedOpcode ↔ 0xC ≤ (w >>> 60).toNat) ∧
    (decode w = .error .reservedField ↔
      (w >>> 60).toNat < 0xC ∧ ∀ op : Op, w &&& op.format.mask ≠ (op.code.setWidth 64) <<< 60)

/-- The worked encodings of R115: each line of text, the command it is, its word, and back. -/
def Obligations.WorkedEncodingsAgree : Prop :=
  (∀ row ∈ ([("NOP", 0x0000000000000000), ("WRITE_PIXEL 5, 3, NORMAL, 1", 0x1100005003000000),
      ("WRITE_PIXEL -1, 0, TOGGLE, 1", 0x1500FFF000000000), ("READ_PIXEL 31, 15", 0x200001F00F000000),
      ("CLEAR 0xFF", 0x30FF000000000000), ("LINE 0, 0, 31, 15, NORMAL", 0x400000000001F00F),
      ("LINE -2048, 2047, -1, 0, NORMAL", 0x40008007FFFFF000), ("BOX 2, 2, 10, 5, TOGGLE", 0x540000200200A005),
      ("FILLED_BOX 2, 2, 10, 5, NORMAL", 0x600000200200A005), ("CIRCLE 16, 8, 5, OR", 0x7600010008005000),
      ("GLYPH 1, 2, 0x31, COMPACT, NOR", 0x8831001002000000), ("TEST_PATTERN STRIPE_0", 0x9002000000000000),
      ("SCAN_ONCE", 0xA000000000000000), ("FENCE", 0xB000000000000000)] : List (String × Word)),
    ∃ i, assembleLine row.1.toList = .ok (some (.command i)) ∧ encode i = row.2 ∧ decode row.2 = .ok i) ∧
  decode 0x1B00000000000000 = .ok (.writePixel 0 0 5 true) ∧
  ∀ c : Config, verdict c 0x1B00000000000000 = .fault .illmode ∧ verdict c 0xC000000000000000 = .fault .illcmd

/-- The byte-wide link (R76): eight bytes, most significant first, are the word; fewer are no word yet. -/
def Obligations.AByteWideLinkSendsTheMostSignificantByteFirst : Prop :=
  (∀ (w : Word) (rest : List Byte),
    decodeBytes (bytesOfWord w ++ rest) = (match decode w with
      | .ok i => .ok (i, rest)
      | .error e => .error e)) ∧
  ∀ bytes : List Byte, bytes.length < 8 → decodeBytes bytes = .error .truncated

/-- Every command that the assembler yields (R113, R114) is encodable, and its word is legal in every configuration, but
for a glyph code that the glyph resource lacks. The surface syntax is log 21's. -/
def Obligations.WhatTheAssemblerYieldsIsEncodableAndLegal : Prop :=
  ∀ (line : List Char) (i : Instr), assembleLine line = .ok (some (.command i)) →
    i.wf = true ∧ ∀ c : Config, verdict c (encode i) = .execute i.op ∨
      ((∃ x y code g mode, i = .glyph x y code g mode) ∧ verdict c (encode i) = .fault .illarg)

/-! ### STATUS, reset and the host's moves (10_state.md, 70_reset_and_hazards.md) -/

/-- STATUS bit by bit (R37): PIX, RDV, CURSOR, SKIP, DE_BUSY, SE_BUSY, the three fault flags, and the reserved bits. -/
def Obligations.StatusShowsItsFields : Prop :=
  ∀ s : State,
    (status s).getLsbD 0 = s.pix ∧ (status s).getLsbD 1 = s.rdv ∧ (status s).extractLsb' 2 2 = s.cursor ∧
    (status s).getLsbD 4 = s.skip ∧ ((status s).getLsbD 5 = true ↔ s.deOps ≠ []) ∧
    ((status s).getLsbD 6 = true ↔ s.se ≠ .idle) ∧ (status s).getLsbD 7 = false ∧
    (status s).getLsbD 8 = s.fIllcmd ∧ (status s).getLsbD 9 = s.fIllmode ∧ (status s).getLsbD 10 = s.fIllarg ∧
    (status s).extractLsb' 11 5 = 0

/-- Asserting RESET replaces the block's whole state in one step (R280), whatever was in progress: the new state is the
one at power-on. Of what stands outside the block (the host's and the draws) it says nothing. -/
def Obligations.ResetReplacesTheWholeState : Prop :=
  ∀ (s : State) (rest : List HostMove), s.host = .reset :: rest →
    ∃ t, agentStep .host s = some (.next t) ∧ (∀ a, t.fb.read a = 0x00) ∧ t.cursor = s.cfg.scanStart ∧
      t.pix = false ∧ t.rdv = false ∧ t.skip = false ∧ t.fIllcmd = false ∧ t.fIllmode = false ∧ t.fIllarg = false ∧
      t.deOps = [] ∧ t.se = .idle ∧ (status t).extractLsb' 5 2 = 0 ∧ t.slot = none ∧ t.rowOe = false ∧
      t.rowSel = 0 ∧ t.events = [] ∧
      t = { State.resetOf s.cfg with hostIndex := t.hostIndex, host := t.host, statusReads := t.statusReads,
                                     schedule := t.schedule, turns := t.turns, busDraws := t.busDraws,
                                     samples := t.samples }

/-- The state after power-on is the state after RESET (R257, R280), it is quiescent (R281), and STATUS shows SCAN_START
and nothing else, for every configuration. -/
def Obligations.PowerOnStateIsTheResetState : Prop :=
  ∀ c : Config,
    (∀ a, (State.resetOf c).fb.read a = 0x00) ∧ (State.resetOf c).cursor = c.scanStart ∧
    (State.resetOf c).deOps = [] ∧ (State.resetOf c).se = .idle ∧ (State.resetOf c).slot = none ∧
    (State.resetOf c).rowOe = false ∧ (State.resetOf c).rowSel = 0 ∧ (State.resetOf c).events = [] ∧
    status (State.resetOf c) = (c.scanStart.setWidth 16) <<< 2 ∧ quiescent (State.resetOf c) = true

/-- The host's two moves on the ports: a STATUS read returns STATUS and has no side effect (R48), only the host's own
record of it grows (log 3); a command write fills the empty slot, and "does not complete until the slot empties" while
it is full (R50). -/
def Obligations.TheHostReadsStatusAndWritesTheEmptySlot : Prop :=
  ∀ (s : State) (rest : List HostMove),
    (s.host = .readStatus :: rest →
      agentStep .host s = some (.next { s with statusReads := s.statusReads ++ [status s], host := rest })) ∧
    (∀ w, s.host = .write w :: rest →
      (s.slot = none → agentStep .host s = some (.next { s with slot := some w, host := rest })) ∧
      (s.slot ≠ none → agentStep .host s = none))

/-! ### The command port (30_encoding.md R110, R111) -/

/-- The port follows R111 for the verdict that R110 gives the word's bits: a fault (R240), NOP and FENCE change nothing but
the slot and the host's index (and the fault's one flag); SCAN_ONCE starts the SE; every other command starts the DE on
its list; and where the agent it needs is busy, the word waits. -/
def Obligations.ThePortFollowsTheVerdict : Prop :=
  ∀ (s : State) (w : Word), s.slot = some w →
    match verdict s.cfg w with
    | .fault f => portStep s = some (.next (setFlag f { s with slot := none, hostIndex := s.hostIndex + 1 }))
    | .execute .nop => portStep s = some (.next { s with slot := none, hostIndex := s.hostIndex + 1 })
    | .execute .fence => portStep s =
        if s.deOps = [] ∧ s.se = .idle then some (.next { s with slot := none, hostIndex := s.hostIndex + 1 }) else none
    | .execute .scanOnce => portStep s =
        if s.se = .idle then some (.next { s with slot := none, hostIndex := s.hostIndex + 1, se := .sample }) else none
    | .execute op => portStep s =
        if s.deOps = [] then
          some (.next { s with slot := none, hostIndex := s.hostIndex + 1, deOps := (op.build w).microOps s.cfg })
        else none

/-! ### The commands (40_pixel.md to 43_control.md) -/

/-- The control commands: NOP is accepted in every state and changes nothing else (R230). FENCE is accepted exactly when
both engines are idle, and changes nothing else (R231); until then it waits. -/
def Obligations.NopIsAlwaysAcceptedAndFenceWaitsForBothEngines : Prop :=
  ∀ s : State,
    exec .nop s = .next { s with slot := none, hostIndex := s.hostIndex + 1 } ∧
    (s.deOps = [] → s.se = .idle → exec .fence s = .next { s with slot := none, hostIndex := s.hostIndex + 1 }) ∧
    (s.deOps ≠ [] ∨ s.se ≠ .idle → exec .fence s = .next s)

/-- SCAN_ONCE is accepted exactly when the SE is idle, which then stands at its sample phase (R111); until then it
waits. -/
def Obligations.ScanOnceStartsTheIdleScanEngine : Prop :=
  ∀ s : State,
    (s.se = .idle →
      exec .scanOnce s = .next { s with slot := none, hostIndex := s.hostIndex + 1, se := .sample }) ∧
    (s.se ≠ .idle → exec .scanOnce s = .next s)

/-- WRITE_PIXEL, READ_PIXEL and CLEAR with an idle DE (R138, R139, R140): each starts its list, and nothing else
changes. -/
def Obligations.PixelCommandsStartTheirLists : Prop :=
  ∀ s : State, s.deOps = [] →
    (∀ x y field v m, Mode.ofField field = some m →
      exec (.writePixel x y field v) s =
        .next { s with slot := none, hostIndex := s.hostIndex + 1, deOps := [.pixop x y m v] }) ∧
    (∀ x y, exec (.readPixel x y) s =
      .next { s with slot := none, hostIndex := s.hostIndex + 1, deOps := [.rdpix x y] }) ∧
    (∀ b, exec (.clear b) s =
      .next { s with slot := none, hostIndex := s.hostIndex + 1,
                     deOps := (List.range s.cfg.fbBytes).map fun k => .fill k b })

/-- LINE, BOX and FILLED_BOX with an idle DE and a defined mode (R160, R162, R165, R167): one PIXOP with v = 1 for each
pixel, in order, and nothing else changes. -/
def Obligations.LineAndBoxCommandsStartTheirLists : Prop :=
  ∀ (s : State) (x1 y1 x2 y2 : Int) (field : BitVec 3) (m : Mode), s.deOps = [] → Mode.ofField field = some m →
    exec (.line x1 y1 x2 y2 field) s =
      .next { s with slot := none, hostIndex := s.hostIndex + 1,
                     deOps := (linePixels x1 y1 x2 y2).map fun p => .pixop p.1 p.2 m true } ∧
    exec (.box x1 y1 x2 y2 field) s =
      .next { s with slot := none, hostIndex := s.hostIndex + 1,
                     deOps := (linePixels (min x1 x2) (min y1 y2) (max x1 x2) (min y1 y2) ++
                       linePixels (max x1 x2) (min y1 y2) (max x1 x2) (max y1 y2) ++
                       linePixels (max x1 x2) (max y1 y2) (min x1 x2) (max y1 y2) ++
                       linePixels (min x1 x2) (max y1 y2) (min x1 x2) (min y1 y2)).map
                         fun p => .pixop p.1 p.2 m true } ∧
    exec (.filledBox x1 y1 x2 y2 field) s =
      .next { s with slot := none, hostIndex := s.hostIndex + 1,
                     deOps := (filledBoxPixels x1 y1 x2 y2).map fun p => .pixop p.1 p.2 m true }

/-- CIRCLE with an idle DE and a defined mode: no PIX and an idle DE for r < 0 (R168), one for r = 0 (R169), the midpoint
circle's for r > 0 (R170), and nothing else changes. -/
def Obligations.CircleStartsItsList : Prop :=
  ∀ (s : State) (xc yc r : Int) (field : BitVec 3) (m : Mode), s.deOps = [] → Mode.ofField field = some m →
    (r < 0 → exec (.circle xc yc r field) s = .next { s with slot := none, hostIndex := s.hostIndex + 1 }) ∧
    (r = 0 → exec (.circle xc yc r field) s =
      .next { s with slot := none, hostIndex := s.hostIndex + 1, deOps := [.pixop xc yc m true] }) ∧
    (0 < r → exec (.circle xc yc r field) s =
      .next { s with slot := none, hostIndex := s.hostIndex + 1,
                     deOps := (plot8 xc yc 0 r ++ circleLoop xc yc r.toNat 0 r (1 - r)).map
                       fun p => .pixop p.1 p.2 m true })

/-- GLYPH with an idle DE, a defined mode and a glyph that the resource holds (R173, R174): one PIXOP for each glyph
pixel, row by row, v the glyph's bit, and nothing else changes. -/
def Obligations.GlyphStartsItsList : Prop :=
  ∀ (s : State) (x y : Int) (code : Byte) (g : Geometry) (field : BitVec 3) (m : Mode) (bm : List (List Bool)),
    s.deOps = [] → Mode.ofField field = some m → s.cfg.glyph g code = some bm →
    exec (.glyph x y code g field) s =
      .next { s with slot := none, hostIndex := s.hostIndex + 1,
                     deOps := (List.range (s.cfg.font g).height).flatMap fun (row : Nat) =>
                       (List.range (s.cfg.font g).width).map fun (col : Nat) =>
                         .pixop (x + (col : Int)) (y + (row : Int)) m (glyphBit bm row col) }

/-- TEST_PATTERN with an idle DE (R176, R177): for each of the four ids, one NORMAL PIXOP for each panel pixel, row by
row, v the pattern's parity, and nothing else changes. -/
def Obligations.TestPatternStartsItsList : Prop :=
  ∀ s : State, s.deOps = [] →
    ∀ p ∈ ([(0, fun x y => (x + y) % 2 == 0), (1, fun x y => (x + y) % 2 == 1), (2, fun x _ => x % 2 == 0),
        (3, fun x _ => x % 2 == 1)] : List (Byte × (Nat → Nat → Bool))),
      exec (.testPattern p.1) s =
        .next { s with slot := none, hostIndex := s.hostIndex + 1,
                       deOps := (List.range s.cfg.height).flatMap fun (y : Nat) =>
                         (List.range s.cfg.width).map fun (x : Nat) =>
                           .pixop (x : Int) (y : Int) .normal (p.2 x y) }

/-- Illegal operands are refused in every state, a busy DE included, and nothing but the flag, the slot and the host's
index changes: MODE 5, 6 and 7 in the six commands that take a mode raise F_ILLMODE (R102, R243); a TEST_PATTERN id over
3, and a GLYPH code that the resource lacks under a defined mode, raise F_ILLARG (R244). -/
def Obligations.IllegalOperandsAreRefused : Prop :=
  ∀ s : State,
    (∀ (x y x2 y2 : Int) (code : Byte) (g : Geometry) (v : Bool) (field : BitVec 3), 5 ≤ field.toNat →
      ∀ i ∈ [Instr.writePixel x y field v, .line x y x2 y2 field, .box x y x2 y2 field, .filledBox x y x2 y2 field,
          .circle x y x2 field, .glyph x y code g field],
        exec i s = .next { s with slot := none, hostIndex := s.hostIndex + 1, fIllmode := true }) ∧
    (∀ id : Byte, 3 < id.toNat →
      exec (.testPattern id) s = .next { s with slot := none, hostIndex := s.hostIndex + 1, fIllarg := true }) ∧
    (∀ x y code g field, (field : BitVec 3).toNat < 5 → s.cfg.glyph g code = none →
      exec (.glyph x y code g field) s =
        .next { s with slot := none, hostIndex := s.hostIndex + 1, fIllarg := true })

/-- A DE command whose verdict is Execute waits, with nothing changed, while the DE is busy (R111, R288; log 6). -/
def Obligations.ADrawingCommandWaitsForTheDrawingEngine : Prop :=
  ∀ (s : State) (i : Instr), i.wf = true → s.deOps ≠ [] → i.op.isDrawing = true →
    verdict s.cfg (encode i) = .execute i.op → exec i s = .next s

/-- Every command answers a next state in every state: the machine never halts on a command (R240). It either waits
with nothing changed, or the word is consumed; and the frame of all twelve: FB, CURSOR, PIX, RDV, SKIP, the outputs,
the history and the configuration are never changed by an acceptance. -/
def Obligations.EveryCommandAnswersANextState : Prop :=
  ∀ (i : Instr) (s : State), ∃ t, exec i s = .next t ∧
    (t = s ∨ t.slot = none ∧ t.hostIndex = s.hostIndex + 1) ∧
    t = { s with slot := t.slot, hostIndex := t.hostIndex, deOps := t.deOps, se := t.se, fIllmode := t.fIllmode,
                 fIllarg := t.fIllarg } ∧
    (t.deOps ≠ s.deOps → i.op.isDrawing = true ∧ s.deOps = []) ∧
    (t.se ≠ s.se → i = .scanOnce ∧ s.se = .idle) ∧
    (s.fIllmode = true → t.fIllmode = true) ∧ (s.fIllarg = true → t.fIllarg = true)

/-! ### The DE's micro-operations (40_pixel.md) -/

/-- PixelAddressing (R131, R132): every in-range pixel lies in a byte that exists, under the mask 0x80 >> (x mod 8), and
distinct pixels have distinct (offset, mask) pairs. -/
def Obligations.DistinctPixelsAreDistinctBits : Prop :=
  ∀ c : Config, c.wf → ∀ x y : Int, c.inRange x y = true →
    c.offset x y = y.toNat * (c.width / 8) + x.toNat / 8 ∧ c.offset x y < c.fbBytes ∧
    pixelMask x = 0x80 >>> (x.toNat % 8) ∧
    ∀ x' y' : Int, c.inRange x' y' = true → c.offset x' y' = c.offset x y → pixelMask x' = pixelMask x →
      x' = x ∧ y' = y

/-- PIXOP (R136): in range it blends the one addressed bit by the truth table of R134, in which INVERSE is the same
function as NORMAL (R135); every other pixel and every other byte stays. Out of range nothing changes. No other state
changes. -/
def Obligations.PixopChangesAtMostOneBit : Prop :=
  ([Mode.normal, .inverse, .toggle, .or, .nor].map
      (fun m => [blend m false false, blend m false true, blend m true false, blend m true true]) =
    [[false, true, false, true], [false, true, false, true], [false, true, true, false], [false, true, true, true],
     [true, false, false, false]]) ∧
  ∀ (s : State) (x y : Int) (m : Mode) (v : Bool), s.Inv →
    ∃ t, perform (.pixop x y m v) s = .next t ∧ t = { s with fb := t.fb } ∧
      (s.cfg.inRange x y = false → t.fb = s.fb) ∧
      (∀ a, a ≠ s.cfg.offset x y → t.fb.read a = s.fb.read a) ∧
      (∀ x' y', s.cfg.inRange x' y' = true →
        pixelBit s.cfg t.fb x' y' =
          if x' = x ∧ y' = y then blend m (pixelBit s.cfg s.fb x y) v else pixelBit s.cfg s.fb x' y')

/-- RDPIX (R137, R247): PIX and RDV report the pixel, or 0 and 0 out of range; nothing else changes, no fault flag
among it. -/
def Obligations.RdpixReportsThePixel : Prop :=
  ∀ (s : State) (x y : Int),
    (s.cfg.inRange x y = true →
      perform (.rdpix x y) s =
        .next { s with pix := decide (s.fb.read (s.cfg.offset x y) &&& pixelMask x ≠ 0), rdv := true }) ∧
    (s.cfg.inRange x y = false → perform (.rdpix x y) s = .next { s with pix := false, rdv := false })

/-- FILL (R140) at an offset that exists writes that byte and nothing else. Outside FB_BYTES, where R70 says no offset is
ever formed, the model stops by name (log 10). -/
def Obligations.FillWritesOneByte : Prop :=
  ∀ (s : State) (k : Nat) (b : Byte), s.fb.wf →
    (k < s.cfg.fbBytes → ∃ t, perform (.fill k b) s = .next t ∧ t = { s with fb := t.fb } ∧ t.fb.wf ∧
      t.fb.read k = b ∧ ∀ a, a ≠ k → t.fb.read a = s.fb.read a) ∧
    (s.cfg.fbBytes ≤ k → perform (.fill k b) s = .fault (.noSuchByte k))

/-- Repeated PIXOPs (R82, R141): twice TOGGLE, and twice NOR with v = 0, restore the framebuffer; NORMAL, INVERSE, OR,
and NOR with v = 1 give the same framebuffer twice as once; OR never clears a pixel, and NOR leaves one lit only where
it was unlit and v = 0. -/
def Obligations.RepeatedPixopsFollowTheirLaws : Prop :=
  ∀ (c : Config) (fb : Memory) (x y : Int) (v : Bool), c.wf → fb.wf →
    (∀ m, m = .toggle ∨ (m = .nor ∧ v = false) → pixopFb c (pixopFb c fb x y m v) x y m v = fb) ∧
    (∀ m, m = .normal ∨ m = .inverse ∨ m = .or ∨ (m = .nor ∧ v = true) →
      pixopFb c (pixopFb c fb x y m v) x y m v = pixopFb c fb x y m v) ∧
    (∀ x' y', c.inRange x' y' = true → pixelBit c fb x' y' = true →
      pixelBit c (pixopFb c fb x y .or v) x' y' = true) ∧
    (c.inRange x y = true → pixelBit c (pixopFb c fb x y .nor v) x y = true → pixelBit c fb x y = false ∧ v = false)

/-- PIXOPs at two distinct in-range pixels commute (R141, item 7), in one byte or in two; so do those at one pixel that
are both TOGGLE, or both NOR with v = 1. -/
def Obligations.PixopsCommute : Prop :=
  ∀ (c : Config) (fb : Memory) (x y x' y' : Int) (m m' : Mode) (v v' : Bool), c.wf → fb.wf →
    c.inRange x y = true → c.inRange x' y' = true →
    (¬(x' = x ∧ y' = y) ∨ (m = .toggle ∧ m' = .toggle) ∨ (m = .nor ∧ m' = .nor ∧ v = true ∧ v' = true)) →
    pixopFb c (pixopFb c fb x y m v) x' y' m' v' = pixopFb c (pixopFb c fb x' y' m' v') x y m v

/-! ### The lists of the drawing primitives (41_primitives.md) -/

/-- The properties of LINE (R163): first and last pixel, the count, no pixel twice, and neighbours at most 1 apart. -/
def Obligations.LinesAreConnectedAndPlotNoPixelTwice : Prop :=
  ∀ x1 y1 x2 y2 : Int,
    (linePixels x1 y1 x2 y2).head? = some (x1, y1) ∧ (linePixels x1 y1 x2 y2).getLast? = some (x2, y2) ∧
    (linePixels x1 y1 x2 y2).length = max (x2 - x1).natAbs (y2 - y1).natAbs + 1 ∧ (linePixels x1 y1 x2 y2).Nodup ∧
    ∀ k p q, (linePixels x1 y1 x2 y2)[k]? = some p → (linePixels x1 y1 x2 y2)[k + 1]? = some q →
      (q.1 - p.1).natAbs ≤ 1 ∧ (q.2 - p.2).natAbs ≤ 1

/-- LINE's k-th pixel in closed form (R162), for every octant: the driving axis moves by k, the other axis by
k × (minor delta) / (major delta) rounded to the nearest, a half rounded away from the start (R164's ties). -/
def Obligations.LinePixelsAreRoundedToTheNearest : Prop :=
  ∀ (x1 y1 x2 y2 : Int) (k : Nat),
    ((y2 - y1).natAbs < (x2 - x1).natAbs → k ≤ (x2 - x1).natAbs →
      (linePixels x1 y1 x2 y2)[k]? =
        some (x1 + (if x1 ≤ x2 then 1 else -1) * (k : Int),
          y1 + (if y1 ≤ y2 then 1 else -1) *
            (((2 * k * (y2 - y1).natAbs + (x2 - x1).natAbs) / (2 * (x2 - x1).natAbs) : Nat) : Int))) ∧
    ((x2 - x1).natAbs ≤ (y2 - y1).natAbs → k ≤ (y2 - y1).natAbs →
      (linePixels x1 y1 x2 y2)[k]? =
        some (x1 + (if x1 ≤ x2 then 1 else -1) *
            (((2 * k * (x2 - x1).natAbs + (y2 - y1).natAbs) / (2 * (y2 - y1).natAbs) : Nat) : Int),
          y1 + (if y1 ≤ y2 then 1 else -1) * (k : Int)))

/-- How often BOX plots each pixel (R166): a proper box its corners twice and the rest of its border once; a box of zero
width or height its ends three times and its inner pixels twice; a point four times; and no other pixel. -/
def Obligations.BoxPlotsItsBorderAsFourLines : Prop :=
  ∀ x1 y1 x2 y2 x y : Int,
    (boxPixels x1 y1 x2 y2).count (x, y) =
      if ¬(min x1 x2 ≤ x ∧ x ≤ max x1 x2 ∧ min y1 y2 ≤ y ∧ y ≤ max y1 y2 ∧ (x = x1 ∨ x = x2 ∨ y = y1 ∨ y = y2)) then 0
      else if x1 = x2 ∧ y1 = y2 then 4
      else if x1 = x2 ∨ y1 = y2 then (if (x = x1 ∨ x = x2) ∧ (y = y1 ∨ y = y2) then 3 else 2)
      else if (x = x1 ∨ x = x2) ∧ (y = y1 ∨ y = y2) then 2 else 1

/-- FILLED_BOX plots each pixel of the normalised rectangle exactly once, borders included, and no other (R167). -/
def Obligations.FilledBoxPlotsEachPixelOnce : Prop :=
  ∀ x1 y1 x2 y2 x y : Int,
    (filledBoxPixels x1 y1 x2 y2).count (x, y) =
      if min x1 x2 ≤ x ∧ x ≤ max x1 x2 ∧ min y1 y2 ≤ y ∧ y ≤ max y1 y2 then 1 else 0

/-- The properties of CIRCLE (R172), at every radius: no pixel twice, and the offsets closed under the two
reflections and the exchange of the axes. -/
def Obligations.CirclesAreSymmetricAndPlotNoPixelTwice : Prop :=
  ∀ xc yc r : Int,
    (circlePixels xc yc r).Nodup ∧
    ∀ dx dy : Int, (xc + dx, yc + dy) ∈ circlePixels xc yc r →
      (xc - dx, yc + dy) ∈ circlePixels xc yc r ∧ (xc + dx, yc - dy) ∈ circlePixels xc yc r ∧
      (xc + dy, yc + dx) ∈ circlePixels xc yc r

/-- CIRCLE's pixels in closed form (R170, R171), at every positive radius: an offset is plotted exactly when its longer
side b lies nearest to the circle over its shorter side a, that is (b - 1/2)² < r² - a² + 1/4 ≤ (b + 1/2)². -/
def Obligations.CirclesPlotThePixelsNearestToTheCircle : Prop :=
  ∀ xc yc r dx dy : Int, 0 < r →
    ((xc + dx, yc + dy) ∈ circlePixels xc yc r ↔
      min |dx| |dy| * min |dx| |dy| + max |dx| |dy| * max |dx| |dy| - max |dx| |dy| < r * r ∧
      r * r ≤ min |dx| |dy| * min |dx| |dy| + max |dx| |dy| * max |dx| |dy| + max |dx| |dy|)

/-- The number of micro-operations of each DE command (R290), for every configuration, operand and defined mode. -/
def Obligations.EveryDrawingTakesItsNumberOfSteps : Prop :=
  ∀ (c : Config) (x1 y1 x2 y2 : Int) (field : BitVec 3) (v : Bool) (b : Byte) (g : Geometry), field.toNat < 5 →
    ((Instr.writePixel x1 y1 field v).microOps c).length = 1 ∧
    ((Instr.readPixel x1 y1).microOps c).length = 1 ∧
    ((Instr.clear b).microOps c).length = c.fbBytes ∧
    ((Instr.line x1 y1 x2 y2 field).microOps c).length = max (x2 - x1).natAbs (y2 - y1).natAbs + 1 ∧
    (((Instr.box x1 y1 x2 y2 field).microOps c).length : Int) =
      2 * (max x1 x2 - min x1 x2 + 1) + 2 * (max y1 y2 - min y1 y2 + 1) ∧
    (((Instr.filledBox x1 y1 x2 y2 field).microOps c).length : Int) =
      (max x1 x2 - min x1 x2 + 1) * (max y1 y2 - min y1 y2 + 1) ∧
    (x2 < 0 → ((Instr.circle x1 y1 x2 field).microOps c).length = 0) ∧
    (c.glyph g b ≠ none →
      ((Instr.glyph x1 y1 b g field).microOps c).length = (c.font g).width * (c.font g).height) ∧
    (b.toNat < 4 → ((Instr.testPattern b).microOps c).length = c.width * c.height)

/-! ### Drawings run to their end -/

/-- A legal drawing command in the slot of an otherwise quiet block runs, in one acceptance and one step for each of its
micro-operations, to a quiescent state, no host move left, whose framebuffer is the micro-operations applied in order; of the rest only
PIX and RDV (READ_PIXEL) and the model's own turns change. -/
def Obligations.ADrawingCommandRunsToItsEnd : Prop :=
  ∀ (s : State) (i : Instr), s.Inv → quiet s → i.wf = true → i.op.isDrawing = true → s.slot = some (encode i) →
    verdict s.cfg (encode i) = .execute i.op →
    ∃ t, runsTo (1 + (i.microOps s.cfg).length) s t ∧ atRest t ∧
      t.fb = fbAfterAll s.cfg s.fb (i.microOps s.cfg) ∧
      t = { s with slot := none, hostIndex := s.hostIndex + 1, fb := t.fb, pix := t.pix, rdv := t.rdv,
                   schedule := t.schedule, turns := t.turns } ∧
      ((∀ x y, i ≠ .readPixel x y) → t.pix = s.pix ∧ t.rdv = s.rdv)

/-- WRITE_PIXEL in a quiet block (R138): after two steps its pixel is blended and every other pixel is as before. -/
def Obligations.WritePixelBlendsItsPixel : Prop :=
  ∀ (s : State) (x y : Int) (field : BitVec 3) (v : Bool) (m : Mode), s.Inv → quiet s →
    s.slot = some (encode (.writePixel x y field v)) → coordOk x = true → coordOk y = true →
    Mode.ofField field = some m →
    ∃ t, runsTo 2 s t ∧ atRest t ∧ ∀ x' y', s.cfg.inRange x' y' = true →
      pixelBit s.cfg t.fb x' y' =
        if x' = x ∧ y' = y then blend m (pixelBit s.cfg s.fb x y) v else pixelBit s.cfg s.fb x' y'

/-- READ_PIXEL in a quiet block (R139): after two steps STATUS bits 1:0 are RDV and PIX, 0 and 0 out of range; the
framebuffer and the fault flags are as before. -/
def Obligations.ReadPixelLeavesItsResultInStatus : Prop :=
  ∀ (s : State) (x y : Int), s.Inv → quiet s → s.slot = some (encode (.readPixel x y)) → coordOk x = true →
    coordOk y = true →
    ∃ t, runsTo 2 s t ∧ atRest t ∧ t.fb = s.fb ∧ (∀ f, flag f t = flag f s) ∧
      (status t).getLsbD 1 = s.cfg.inRange x y ∧
      (status t).getLsbD 0 = (s.cfg.inRange x y && pixelBit s.cfg s.fb x y)

/-- A read result stands once DE_BUSY reads 0 (R284): from the state right after READ_PIXEL was accepted, in every run
of STATUS reads and engine steps, whatever their order, a state with an idle DE has PIX and RDV of this command. -/
def Obligations.AReadResultStandsOnceTheDrawingEngineIsIdle : Prop :=
  ∀ (n : Nat) (s t : State) (x y : Int), s.deOps = [.rdpix x y] → s.slot = none →
    (∀ move ∈ s.host, move = .readStatus ∨ move = .waitIdle) → runsTo n s t → (status t).getLsbD 5 = false →
    t.rdv = s.cfg.inRange x y ∧ t.pix = (s.cfg.inRange x y && pixelBit s.cfg s.fb x y)

/-- CLEAR in a quiet block (R140): after FB_BYTES + 1 steps every framebuffer byte is the fill byte. -/
def Obligations.ClearFillsTheWholeFramebuffer : Prop :=
  ∀ (s : State) (b : Byte), s.Inv → quiet s → s.slot = some (encode (.clear b)) →
    ∃ t, runsTo (1 + s.cfg.fbBytes) s t ∧ atRest t ∧ ∀ a, a < s.cfg.fbBytes → t.fb.read a = b

/-- LINE, FILLED_BOX and CIRCLE in a quiet block (R162, R163, R167, R170, R172): each pixel of the figure that is on the
panel is blended with v = 1 exactly once, so TOGGLE flips it, and every other pixel is as before. -/
def Obligations.FiguresBlendEachOfTheirPixelsOnce : Prop :=
  ∀ (s : State) (i : Instr) (pixels : List (Int × Int)) (m : Mode), s.Inv → quiet s → i.wf = true →
    s.slot = some (encode i) →
    (∃ field, Mode.ofField field = some m ∧
      ((∃ x1 y1 x2 y2, i = .line x1 y1 x2 y2 field ∧ pixels = linePixels x1 y1 x2 y2) ∨
       (∃ x1 y1 x2 y2, i = .filledBox x1 y1 x2 y2 field ∧ pixels = filledBoxPixels x1 y1 x2 y2) ∨
       (∃ xc yc r, i = .circle xc yc r field ∧ pixels = circlePixels xc yc r))) →
    ∃ t, runsTo (1 + pixels.length) s t ∧ atRest t ∧ ∀ x y, s.cfg.inRange x y = true →
      pixelBit s.cfg t.fb x y =
        if (x, y) ∈ pixels then blend m (pixelBit s.cfg s.fb x y) true else pixelBit s.cfg s.fb x y

/-- BOX in a quiet block (R165, R166): each pixel is blended with v = 1 as often as the four lines plot it; so under
TOGGLE a proper box leaves its four corners as they were and flips the rest of its border. -/
def Obligations.BoxBlendsEachPixelAsOftenAsItsLinesPlotIt : Prop :=
  ∀ (s : State) (x1 y1 x2 y2 : Int) (field : BitVec 3) (m : Mode), s.Inv → quiet s →
    (Instr.box x1 y1 x2 y2 field).wf = true → s.slot = some (encode (.box x1 y1 x2 y2 field)) →
    Mode.ofField field = some m →
    ∃ t, runsTo (1 + (boxPixels x1 y1 x2 y2).length) s t ∧ atRest t ∧
      ∀ x y, s.cfg.inRange x y = true →
        pixelBit s.cfg t.fb x y =
          (fun e => blend m e true)^[(boxPixels x1 y1 x2 y2).count (x, y)] (pixelBit s.cfg s.fb x y)

/-- GLYPH in a quiet block (R174, R175): each pixel of the glyph's cell on the panel is blended once with the glyph's
bit, set or unset, and every other pixel is as before. -/
def Obligations.GlyphBlendsItsWholeCell : Prop :=
  ∀ (s : State) (x y : Int) (code : Byte) (g : Geometry) (field : BitVec 3) (m : Mode) (bm : List (List Bool)),
    s.Inv → quiet s → (Instr.glyph x y code g field).wf = true → s.slot = some (encode (.glyph x y code g field)) →
    Mode.ofField field = some m → s.cfg.glyph g code = some bm →
    ∃ t, runsTo (1 + (s.cfg.font g).height * (s.cfg.font g).width) s t ∧ atRest t ∧
      (∀ row col : Nat, row < (s.cfg.font g).height → col < (s.cfg.font g).width →
        s.cfg.inRange (x + (col : Int)) (y + (row : Int)) = true →
        pixelBit s.cfg t.fb (x + (col : Int)) (y + (row : Int)) =
          blend m (pixelBit s.cfg s.fb (x + (col : Int)) (y + (row : Int))) (glyphBit bm row col)) ∧
      (∀ x' y', s.cfg.inRange x' y' = true →
        ¬(x ≤ x' ∧ x' < x + ((s.cfg.font g).width : Int) ∧ y ≤ y' ∧ y' < y + ((s.cfg.font g).height : Int)) →
        pixelBit s.cfg t.fb x' y' = pixelBit s.cfg s.fb x' y')

/-- TEST_PATTERN in a quiet block (R176, R177): every panel pixel is the pattern's, whatever the framebuffer held. -/
def Obligations.TestPatternOverwritesThePanel : Prop :=
  ∀ (s : State) (id : Byte) (p : Pattern), s.Inv → quiet s → s.slot = some (encode (.testPattern id)) →
    Pattern.ofId id = some p →
    ∃ t, runsTo (1 + s.cfg.height * s.cfg.width) s t ∧ atRest t ∧
      ∀ x y : Nat, x < s.cfg.width → y < s.cfg.height → pixelBit s.cfg t.fb (x : Int) (y : Int) = p.pixel x y

/-! ### The scan (42_scan.md) -/

/-- SCAN_ONCE in a quiet block with a free bus (R202, R203, R205): in one acceptance and SLICE_BYTES + 6 steps it emits
OE(0), SEL(s), the slice's bytes in SliceOrder, LATCH, OE(1), and leaves CURSOR at the next slice. -/
def Obligations.AScanTransfersTheSliceAtTheCursor : Prop :=
  ∀ s : State, s.Inv → quiet s → s.slot = some (encode .scanOnce) → (drawBus s).1 = false →
    ∃ t, runsTo (1 + (s.cfg.sliceBytes + 6)) s t ∧ atRest t ∧
      t.events = s.events ++ transferEvents s.cursor ((s.cfg.sliceOrder[s.cursor.toNat]'s.cursor.isLt).map s.fb.read) ∧
      t.cursor = s.cursor + 1 ∧ t.rowOe = true ∧ t.rowSel = s.cursor ∧ t.skip = false ∧
      t = { s with slot := none, hostIndex := s.hostIndex + 1, events := t.events, cursor := t.cursor, rowOe := t.rowOe,
                   rowSel := t.rowSel, skip := t.skip, schedule := t.schedule, turns := t.turns,
                   busDraws := t.busDraws, samples := t.samples }

/-- SCAN_ONCE in a quiet block whose bus is claimed (R203, R246): after the sample step the SE is idle again, SKIP is 1,
and no event, output, framebuffer byte, cursor or fault flag has changed. -/
def Obligations.AClaimedBusSkipsTheScan : Prop :=
  ∀ s : State, quiet s → s.slot = some (encode .scanOnce) → (drawBus s).1 = true →
    ∃ t, runsTo 2 s t ∧ atRest t ∧
      t = { s with slot := none, hostIndex := s.hostIndex + 1, skip := true, schedule := t.schedule, turns := t.turns,
                   busDraws := t.busDraws, samples := t.samples }

/-- The SE changes only CURSOR, SKIP, its own progress, the outputs and the history, and never FB; and it reads FB only
at its shift steps: every other step is the same over any other framebuffer (R207). -/
def Obligations.TheScanEngineNeverWritesTheFramebuffer : Prop :=
  ∀ s t : State, agentStep .se s = some (.next t) →
    t = { s with cursor := t.cursor, skip := t.skip, se := t.se, rowOe := t.rowOe, rowSel := t.rowSel,
                 events := t.events, busDraws := t.busDraws, samples := t.samples } ∧
    ((∀ sl k, s.se ≠ .transfer sl (.shift k)) → ∀ fb : Memory,
      agentStep .se { s with fb := fb } = some (.next { t with fb := fb }))

/-- The slices partition the framebuffer (R200, R201): each byte is shifted for exactly one slice, the one of its row's
number mod 4, and once. -/
def Obligations.TheSlicesPartitionTheFramebuffer : Prop :=
  ∀ c : Config, c.wf → ∀ s : Fin 4,
    (c.sliceOrder[s]).length = c.sliceBytes ∧ (c.sliceOrder[s]).Nodup ∧
    ∀ a, a ∈ c.sliceOrder[s] ↔ a < c.fbBytes ∧ (a / c.bytesPerRow) % 4 = s

/-- CURSOR, ROW_OE, ROW_SEL and SKIP are written only in the phase that R35, R51, R52 and R41 name, and by RESET. -/
def Obligations.ScanStateIsWrittenOnlyInItsPhase : Prop :=
  ∀ s t : State, step s = .next t → (∃ rest, s.host = .reset :: rest ∧ t.host = rest) ∨
    (t.cursor ≠ s.cursor → ∃ sl, s.se = .transfer sl .advance ∧ t.cursor = sl + 1) ∧
    (t.rowOe ≠ s.rowOe → ∃ sl, (s.se = .transfer sl .blank ∧ t.rowOe = false) ∨
      (s.se = .transfer sl .enable ∧ t.rowOe = true)) ∧
    (t.rowSel ≠ s.rowSel → ∃ sl, s.se = .transfer sl .select ∧ t.rowSel = sl) ∧
    (t.skip ≠ s.skip → s.se = .sample) ∧
    (t.events ≠ s.events → ∃ sl phase, s.se = .transfer sl phase ∧ phase ≠ .advance)

/-- Every step keeps the history's shape (R202, R205, R206): whole transfers of consecutive slices from SCAN_START on,
each of SLICE_BYTES bytes, then the part of the one in progress, with the cursor after the whole ones. -/
def Obligations.TheHistoryIsConsecutiveWholeTransfers : Prop :=
  ∀ s t : State, s.Inv → s.HistoryOk → step s = .next t → t.HistoryOk

/-! ### The machine as a whole (20_memory.md R83 to R87, 60_exceptions.md) -/

/-- A step runs the decoded command: when it is the port's turn and the word in the slot decodes to `i`, the step is
exec of `i`, if `exec` accepts it; a word that does not decode raises F_ILLCMD; and the word that withFetchWord places
is the one that the next step runs. -/
def Obligations.AStepRunsTheDecodedCommand : Prop :=
  (∀ (s t : State) (w : Word) (i : Instr), (drawTurn s).1 = .port → s.slot = some w → decode w = .ok i →
    exec i (drawTurn s).2 = .next t → t.slot = none → step s = exec i (drawTurn s).2) ∧
  (∀ (s : State) (w : Word) (e : Reject), (drawTurn s).1 = .port → s.slot = some w → decode w = .error e →
    step s = .next (raiseFault .illcmd (drawTurn s).2)) ∧
  (∀ (s t : State) (nbits w : Nat) (i : Instr), decodeTableWord nbits w = some i →
    exec i { s with slot := some (tableWord nbits w) } = .next t → t.slot = none →
    step (s.withFetchWord nbits w) = .next t)

/-- "Which agent steps next is free: any interleaving of enabled steps is a run" (R83): every step is one step of one
agent that can move, or nothing where none can; and every agent that can move may be the next one. -/
def Obligations.EveryInterleavingOfAgentStepsIsARun : Prop :=
  (∀ s : State, (∃ a, agentStep a (drawTurn s).2 = some (step s)) ∨
    (step s = .next s ∧ ∀ a, agentStep a (drawTurn s).2 = none)) ∧
  (∀ (s : State) (a : Agent) (rest : List Agent) (r : Result),
    agentStep a { s with schedule := rest } = some r → step { s with schedule := a :: rest } = r)

/-- A state in which no agent can move is quiescent, with no host move left: no word, host move or engine is ever stuck
(R84, R288, R291). -/
def Obligations.NothingIsEverStuck : Prop :=
  ∀ s : State, (∀ a, agentStep a s = none) → atRest s

/-- Every step from a state that meets the invariant answers a next state, and that state meets it. -/
def Obligations.EveryStepKeepsTheInvariant : Prop :=
  ∀ s : State, s.Inv → ∃ t, step s = .next t ∧ t.Inv

/-- The reset state of every legal configuration meets the invariant and the history's shape; so does State.reset. -/
def Obligations.ResetMeetsTheInvariant : Prop :=
  (∀ c : Config, c.wf → (State.resetOf c).Inv ∧ (State.resetOf c).HistoryOk) ∧ State.reset.Inv ∧ State.reset.HistoryOk

/-- Every run ends (R84): from a state that meets the invariant, whatever the schedule and the draws, the machine is
quiescent, with no host move left, after as many steps as its pending work counts. A run that ends sooner stays there
for the rest of the count: a step in which no agent can move answers the same state, which is the model's (log 19). -/
def Obligations.EveryRunEnds : Prop :=
  ∀ s : State, s.Inv → ∃ t, runsTo (workLeft s) s t ∧ atRest t

/-- PIX and RDV are written only by RDPIX, with the bit read and the range check (R38, R39), and by RESET, with 0. FB, and
the shortening of the DE's list, only by the DE (R32, R54, R87), and by RESET. -/
def Obligations.DrawingStateIsWrittenOnlyByTheDrawingEngine : Prop :=
  ∀ s t : State, step s = .next t →
    (∃ rest, s.host = .reset :: rest ∧ t.host = rest ∧ t.pix = false ∧ t.rdv = false ∧
      ∀ a, t.fb.read a = 0x00) ∨
    (t.fb ≠ s.fb → ∃ op rest, s.deOps = op :: rest ∧ t.deOps = rest ∧ t.fb = fbAfter s.cfg s.fb op) ∧
    (t.pix ≠ s.pix ∨ t.rdv ≠ s.rdv → ∃ x y rest, s.deOps = .rdpix x y :: rest ∧ t.deOps = rest ∧
      t.pix = (s.cfg.inRange x y && pixelBit s.cfg s.fb x y) ∧ t.rdv = s.cfg.inRange x y) ∧
    (t.deOps ≠ s.deOps → (∃ op, s.deOps = op :: t.deOps) ∨ (s.deOps = [] ∧ s.slot ≠ none ∧ t.slot = none)) ∧
    t.cfg = s.cfg

/-- Fault flags are sticky (R241): in every run in which the host does not assert RESET, a flag once set stays set; and
a step sets a flag only by refusing a word whose verdict is that fault (R240). -/
def Obligations.FaultFlagsAreSticky : Prop :=
  (∀ (n : Nat) (s t : State) (f : FaultFlag), HostMove.reset ∉ s.host → runsTo n s t → flag f s = true →
    flag f t = true) ∧
  ∀ (s t : State) (f : FaultFlag), step s = .next t → flag f s = false → flag f t = true →
    ∃ w, s.slot = some w ∧ t.slot = none ∧ verdict s.cfg w = .fault f

/-- What a scan can see of a drawing (R85): with no word waiting and none to come, the framebuffer at every later moment
is the starting one after some prefix of the DE's list, and a SHIFT then carries the byte of that prefix. -/
def Obligations.AScanSeesOnlyPrefixesOfADrawing : Prop :=
  ∀ (n : Nat) (s t : State), s.slot = none → (∀ move ∈ s.host, move = .readStatus ∨ move = .waitIdle) →
    runsTo n s t →
    ∃ k, k ≤ s.deOps.length ∧ t.deOps = s.deOps.drop k ∧ t.fb = fbAfterAll s.cfg s.fb (s.deOps.take k) ∧
      ∀ u sl j, t.se = .transfer sl (.shift j) → agentStep .se t = some (.next u) →
        ∃ off, s.cfg.sliceOffset sl j = some off ∧
          u.events = t.events ++ [.shift ((fbAfterAll s.cfg s.fb (s.deOps.take k)).read off)]

/-- The observation at a run's end is final (R291): in every run from a quiescent state in which the host has no RESET
left, STATUS reads and waits among its steps, the state stays quiescent and the observation stays what it is. -/
def Obligations.TheObservationAtARunsEndIsFinal : Prop :=
  ∀ (n : Nat) (s t : State), quiescent s = true → HostMove.reset ∉ s.host → runsTo n s t →
    quiescent t = true ∧ observe t = observe s
end

