-- ==== Sys2Proof/Laws/State.lean ====
section
/-! SUPPORT. One lemma per field per named update of State, so that no proof unfolds an update: accepting a word, setting
a flag, raising a fault, emitting an event, taking a turn or a draw, placing a word, RESET. -/

namespace Sys2Proof.Machine

variable (s : State)


/-! ### accept -/

@[simp] theorem accept_cfg : (accept s).cfg = s.cfg := rfl
@[simp] theorem accept_fb : (accept s).fb = s.fb := rfl
@[simp] theorem accept_cursor : (accept s).cursor = s.cursor := rfl
@[simp] theorem accept_pix : (accept s).pix = s.pix := rfl
@[simp] theorem accept_rdv : (accept s).rdv = s.rdv := rfl
@[simp] theorem accept_skip : (accept s).skip = s.skip := rfl
@[simp] theorem accept_fIllcmd : (accept s).fIllcmd = s.fIllcmd := rfl
@[simp] theorem accept_fIllmode : (accept s).fIllmode = s.fIllmode := rfl
@[simp] theorem accept_fIllarg : (accept s).fIllarg = s.fIllarg := rfl
@[simp] theorem accept_deOps : (accept s).deOps = s.deOps := rfl
@[simp] theorem accept_se : (accept s).se = s.se := rfl
@[simp] theorem accept_slot : (accept s).slot = none := rfl
@[simp] theorem accept_rowOe : (accept s).rowOe = s.rowOe := rfl
@[simp] theorem accept_rowSel : (accept s).rowSel = s.rowSel := rfl
@[simp] theorem accept_events : (accept s).events = s.events := rfl
@[simp] theorem accept_hostIndex : (accept s).hostIndex = s.hostIndex + 1 := rfl
@[simp] theorem accept_host : (accept s).host = s.host := rfl
@[simp] theorem accept_statusReads : (accept s).statusReads = s.statusReads := rfl
@[simp] theorem accept_schedule : (accept s).schedule = s.schedule := rfl
@[simp] theorem accept_turns : (accept s).turns = s.turns := rfl
@[simp] theorem accept_busDraws : (accept s).busDraws = s.busDraws := rfl
@[simp] theorem accept_samples : (accept s).samples = s.samples := rfl

/-! ### setFlag -/

@[simp] theorem setFlag_cfg (f : FaultFlag) : (setFlag f s).cfg = s.cfg := by cases f <;> rfl
@[simp] theorem setFlag_fb (f : FaultFlag) : (setFlag f s).fb = s.fb := by cases f <;> rfl
@[simp] theorem setFlag_cursor (f : FaultFlag) : (setFlag f s).cursor = s.cursor := by cases f <;> rfl
@[simp] theorem setFlag_pix (f : FaultFlag) : (setFlag f s).pix = s.pix := by cases f <;> rfl
@[simp] theorem setFlag_rdv (f : FaultFlag) : (setFlag f s).rdv = s.rdv := by cases f <;> rfl
@[simp] theorem setFlag_skip (f : FaultFlag) : (setFlag f s).skip = s.skip := by cases f <;> rfl
@[simp] theorem setFlag_deOps (f : FaultFlag) : (setFlag f s).deOps = s.deOps := by cases f <;> rfl
@[simp] theorem setFlag_se (f : FaultFlag) : (setFlag f s).se = s.se := by cases f <;> rfl
@[simp] theorem setFlag_slot (f : FaultFlag) : (setFlag f s).slot = s.slot := by cases f <;> rfl
@[simp] theorem setFlag_rowOe (f : FaultFlag) : (setFlag f s).rowOe = s.rowOe := by cases f <;> rfl
@[simp] theorem setFlag_rowSel (f : FaultFlag) : (setFlag f s).rowSel = s.rowSel := by cases f <;> rfl
@[simp] theorem setFlag_events (f : FaultFlag) : (setFlag f s).events = s.events := by cases f <;> rfl
@[simp] theorem setFlag_hostIndex (f : FaultFlag) : (setFlag f s).hostIndex = s.hostIndex := by cases f <;> rfl
@[simp] theorem setFlag_host (f : FaultFlag) : (setFlag f s).host = s.host := by cases f <;> rfl
@[simp] theorem setFlag_statusReads (f : FaultFlag) : (setFlag f s).statusReads = s.statusReads := by cases f <;> rfl
@[simp] theorem setFlag_schedule (f : FaultFlag) : (setFlag f s).schedule = s.schedule := by cases f <;> rfl
@[simp] theorem setFlag_turns (f : FaultFlag) : (setFlag f s).turns = s.turns := by cases f <;> rfl
@[simp] theorem setFlag_busDraws (f : FaultFlag) : (setFlag f s).busDraws = s.busDraws := by cases f <;> rfl
@[simp] theorem setFlag_samples (f : FaultFlag) : (setFlag f s).samples = s.samples := by cases f <;> rfl
@[simp] theorem flag_setFlag (f g : FaultFlag) : flag g (setFlag f s) = (decide (g = f) || flag g s) := by cases f <;> cases g <;> rfl
@[simp] theorem flag_accept (g : FaultFlag) : flag g (accept s) = flag g s := by cases g <;> rfl

/-! ### raiseFault -/

@[simp] theorem raiseFault_cfg (f : FaultFlag) : (raiseFault f s).cfg = s.cfg := by cases f <;> rfl
@[simp] theorem raiseFault_fb (f : FaultFlag) : (raiseFault f s).fb = s.fb := by cases f <;> rfl
@[simp] theorem raiseFault_cursor (f : FaultFlag) : (raiseFault f s).cursor = s.cursor := by cases f <;> rfl
@[simp] theorem raiseFault_pix (f : FaultFlag) : (raiseFault f s).pix = s.pix := by cases f <;> rfl
@[simp] theorem raiseFault_rdv (f : FaultFlag) : (raiseFault f s).rdv = s.rdv := by cases f <;> rfl
@[simp] theorem raiseFault_skip (f : FaultFlag) : (raiseFault f s).skip = s.skip := by cases f <;> rfl
@[simp] theorem raiseFault_deOps (f : FaultFlag) : (raiseFault f s).deOps = s.deOps := by cases f <;> rfl
@[simp] theorem raiseFault_se (f : FaultFlag) : (raiseFault f s).se = s.se := by cases f <;> rfl
@[simp] theorem raiseFault_slot (f : FaultFlag) : (raiseFault f s).slot = none := by cases f <;> rfl
@[simp] theorem raiseFault_rowOe (f : FaultFlag) : (raiseFault f s).rowOe = s.rowOe := by cases f <;> rfl
@[simp] theorem raiseFault_rowSel (f : FaultFlag) : (raiseFault f s).rowSel = s.rowSel := by cases f <;> rfl
@[simp] theorem raiseFault_events (f : FaultFlag) : (raiseFault f s).events = s.events := by cases f <;> rfl
@[simp] theorem raiseFault_hostIndex (f : FaultFlag) : (raiseFault f s).hostIndex = s.hostIndex + 1 := by cases f <;> rfl
@[simp] theorem raiseFault_host (f : FaultFlag) : (raiseFault f s).host = s.host := by cases f <;> rfl
@[simp] theorem raiseFault_statusReads (f : FaultFlag) : (raiseFault f s).statusReads = s.statusReads := by cases f <;> rfl
@[simp] theorem raiseFault_schedule (f : FaultFlag) : (raiseFault f s).schedule = s.schedule := by cases f <;> rfl
@[simp] theorem raiseFault_turns (f : FaultFlag) : (raiseFault f s).turns = s.turns := by cases f <;> rfl
@[simp] theorem raiseFault_busDraws (f : FaultFlag) : (raiseFault f s).busDraws = s.busDraws := by cases f <;> rfl
@[simp] theorem raiseFault_samples (f : FaultFlag) : (raiseFault f s).samples = s.samples := by cases f <;> rfl
@[simp] theorem flag_raiseFault (f g : FaultFlag) : flag g (raiseFault f s) = (decide (g = f) || flag g s) := by cases f <;> cases g <;> rfl

/-! ### emit -/

@[simp] theorem emit_cfg (e : Event) : (emit e s).cfg = s.cfg := rfl
@[simp] theorem emit_fb (e : Event) : (emit e s).fb = s.fb := rfl
@[simp] theorem emit_cursor (e : Event) : (emit e s).cursor = s.cursor := rfl
@[simp] theorem emit_pix (e : Event) : (emit e s).pix = s.pix := rfl
@[simp] theorem emit_rdv (e : Event) : (emit e s).rdv = s.rdv := rfl
@[simp] theorem emit_skip (e : Event) : (emit e s).skip = s.skip := rfl
@[simp] theorem emit_fIllcmd (e : Event) : (emit e s).fIllcmd = s.fIllcmd := rfl
@[simp] theorem emit_fIllmode (e : Event) : (emit e s).fIllmode = s.fIllmode := rfl
@[simp] theorem emit_fIllarg (e : Event) : (emit e s).fIllarg = s.fIllarg := rfl
@[simp] theorem emit_deOps (e : Event) : (emit e s).deOps = s.deOps := rfl
@[simp] theorem emit_se (e : Event) : (emit e s).se = s.se := rfl
@[simp] theorem emit_slot (e : Event) : (emit e s).slot = s.slot := rfl
@[simp] theorem emit_rowOe (e : Event) : (emit e s).rowOe = s.rowOe := rfl
@[simp] theorem emit_rowSel (e : Event) : (emit e s).rowSel = s.rowSel := rfl
@[simp] theorem emit_events (e : Event) : (emit e s).events = s.events ++ [e] := rfl
@[simp] theorem emit_hostIndex (e : Event) : (emit e s).hostIndex = s.hostIndex := rfl
@[simp] theorem emit_host (e : Event) : (emit e s).host = s.host := rfl
@[simp] theorem emit_statusReads (e : Event) : (emit e s).statusReads = s.statusReads := rfl
@[simp] theorem emit_schedule (e : Event) : (emit e s).schedule = s.schedule := rfl
@[simp] theorem emit_turns (e : Event) : (emit e s).turns = s.turns := rfl
@[simp] theorem emit_busDraws (e : Event) : (emit e s).busDraws = s.busDraws := rfl
@[simp] theorem emit_samples (e : Event) : (emit e s).samples = s.samples := rfl

/-! ### drawBus -/

@[simp] theorem drawBus_cfg : (drawBus s).2.cfg = s.cfg := by unfold drawBus; split <;> rfl
@[simp] theorem drawBus_fb : (drawBus s).2.fb = s.fb := by unfold drawBus; split <;> rfl
@[simp] theorem drawBus_cursor : (drawBus s).2.cursor = s.cursor := by unfold drawBus; split <;> rfl
@[simp] theorem drawBus_pix : (drawBus s).2.pix = s.pix := by unfold drawBus; split <;> rfl
@[simp] theorem drawBus_rdv : (drawBus s).2.rdv = s.rdv := by unfold drawBus; split <;> rfl
@[simp] theorem drawBus_skip : (drawBus s).2.skip = s.skip := by unfold drawBus; split <;> rfl
@[simp] theorem drawBus_fIllcmd : (drawBus s).2.fIllcmd = s.fIllcmd := by unfold drawBus; split <;> rfl
@[simp] theorem drawBus_fIllmode : (drawBus s).2.fIllmode = s.fIllmode := by unfold drawBus; split <;> rfl
@[simp] theorem drawBus_fIllarg : (drawBus s).2.fIllarg = s.fIllarg := by unfold drawBus; split <;> rfl
@[simp] theorem drawBus_deOps : (drawBus s).2.deOps = s.deOps := by unfold drawBus; split <;> rfl
@[simp] theorem drawBus_se : (drawBus s).2.se = s.se := by unfold drawBus; split <;> rfl
@[simp] theorem drawBus_slot : (drawBus s).2.slot = s.slot := by unfold drawBus; split <;> rfl
@[simp] theorem drawBus_rowOe : (drawBus s).2.rowOe = s.rowOe := by unfold drawBus; split <;> rfl
@[simp] theorem drawBus_rowSel : (drawBus s).2.rowSel = s.rowSel := by unfold drawBus; split <;> rfl
@[simp] theorem drawBus_events : (drawBus s).2.events = s.events := by unfold drawBus; split <;> rfl
@[simp] theorem drawBus_hostIndex : (drawBus s).2.hostIndex = s.hostIndex := by unfold drawBus; split <;> rfl
@[simp] theorem drawBus_host : (drawBus s).2.host = s.host := by unfold drawBus; split <;> rfl
@[simp] theorem drawBus_statusReads : (drawBus s).2.statusReads = s.statusReads := by unfold drawBus; split <;> rfl
@[simp] theorem drawBus_schedule : (drawBus s).2.schedule = s.schedule := by unfold drawBus; split <;> rfl
@[simp] theorem drawBus_turns : (drawBus s).2.turns = s.turns := by unfold drawBus; split <;> rfl

/-! ### drawTurn -/

@[simp] theorem drawTurn_cfg : (drawTurn s).2.cfg = s.cfg := by unfold drawTurn; split <;> rfl
@[simp] theorem drawTurn_fb : (drawTurn s).2.fb = s.fb := by unfold drawTurn; split <;> rfl
@[simp] theorem drawTurn_cursor : (drawTurn s).2.cursor = s.cursor := by unfold drawTurn; split <;> rfl
@[simp] theorem drawTurn_pix : (drawTurn s).2.pix = s.pix := by unfold drawTurn; split <;> rfl
@[simp] theorem drawTurn_rdv : (drawTurn s).2.rdv = s.rdv := by unfold drawTurn; split <;> rfl
@[simp] theorem drawTurn_skip : (drawTurn s).2.skip = s.skip := by unfold drawTurn; split <;> rfl
@[simp] theorem drawTurn_fIllcmd : (drawTurn s).2.fIllcmd = s.fIllcmd := by unfold drawTurn; split <;> rfl
@[simp] theorem drawTurn_fIllmode : (drawTurn s).2.fIllmode = s.fIllmode := by unfold drawTurn; split <;> rfl
@[simp] theorem drawTurn_fIllarg : (drawTurn s).2.fIllarg = s.fIllarg := by unfold drawTurn; split <;> rfl
@[simp] theorem drawTurn_deOps : (drawTurn s).2.deOps = s.deOps := by unfold drawTurn; split <;> rfl
@[simp] theorem drawTurn_se : (drawTurn s).2.se = s.se := by unfold drawTurn; split <;> rfl
@[simp] theorem drawTurn_slot : (drawTurn s).2.slot = s.slot := by unfold drawTurn; split <;> rfl
@[simp] theorem drawTurn_rowOe : (drawTurn s).2.rowOe = s.rowOe := by unfold drawTurn; split <;> rfl
@[simp] theorem drawTurn_rowSel : (drawTurn s).2.rowSel = s.rowSel := by unfold drawTurn; split <;> rfl
@[simp] theorem drawTurn_events : (drawTurn s).2.events = s.events := by unfold drawTurn; split <;> rfl
@[simp] theorem drawTurn_hostIndex : (drawTurn s).2.hostIndex = s.hostIndex := by unfold drawTurn; split <;> rfl
@[simp] theorem drawTurn_host : (drawTurn s).2.host = s.host := by unfold drawTurn; split <;> rfl
@[simp] theorem drawTurn_statusReads : (drawTurn s).2.statusReads = s.statusReads := by unfold drawTurn; split <;> rfl
@[simp] theorem drawTurn_busDraws : (drawTurn s).2.busDraws = s.busDraws := by unfold drawTurn; split <;> rfl
@[simp] theorem drawTurn_samples : (drawTurn s).2.samples = s.samples := by unfold drawTurn; split <;> rfl

/-! ### placeWord -/

@[simp] theorem placeWord_cfg (w : Word) : (placeWord w s).cfg = s.cfg := rfl
@[simp] theorem placeWord_fb (w : Word) : (placeWord w s).fb = s.fb := rfl
@[simp] theorem placeWord_cursor (w : Word) : (placeWord w s).cursor = s.cursor := rfl
@[simp] theorem placeWord_pix (w : Word) : (placeWord w s).pix = s.pix := rfl
@[simp] theorem placeWord_rdv (w : Word) : (placeWord w s).rdv = s.rdv := rfl
@[simp] theorem placeWord_skip (w : Word) : (placeWord w s).skip = s.skip := rfl
@[simp] theorem placeWord_fIllcmd (w : Word) : (placeWord w s).fIllcmd = s.fIllcmd := rfl
@[simp] theorem placeWord_fIllmode (w : Word) : (placeWord w s).fIllmode = s.fIllmode := rfl
@[simp] theorem placeWord_fIllarg (w : Word) : (placeWord w s).fIllarg = s.fIllarg := rfl
@[simp] theorem placeWord_deOps (w : Word) : (placeWord w s).deOps = s.deOps := rfl
@[simp] theorem placeWord_se (w : Word) : (placeWord w s).se = s.se := rfl
@[simp] theorem placeWord_slot (w : Word) : (placeWord w s).slot = some w := rfl
@[simp] theorem placeWord_rowOe (w : Word) : (placeWord w s).rowOe = s.rowOe := rfl
@[simp] theorem placeWord_rowSel (w : Word) : (placeWord w s).rowSel = s.rowSel := rfl
@[simp] theorem placeWord_events (w : Word) : (placeWord w s).events = s.events := rfl
@[simp] theorem placeWord_hostIndex (w : Word) : (placeWord w s).hostIndex = s.hostIndex := rfl
@[simp] theorem placeWord_host (w : Word) : (placeWord w s).host = s.host := rfl
@[simp] theorem placeWord_statusReads (w : Word) : (placeWord w s).statusReads = s.statusReads := rfl
@[simp] theorem placeWord_schedule (w : Word) : (placeWord w s).schedule = .port :: s.schedule := rfl
@[simp] theorem placeWord_turns (w : Word) : (placeWord w s).turns = s.turns := rfl
@[simp] theorem placeWord_busDraws (w : Word) : (placeWord w s).busDraws = s.busDraws := rfl
@[simp] theorem placeWord_samples (w : Word) : (placeWord w s).samples = s.samples := rfl

/-! ### resetBlock -/

@[simp] theorem resetBlock_cfg : (resetBlock s).cfg = s.cfg := rfl
@[simp] theorem resetBlock_fb : (resetBlock s).fb = [] := rfl
@[simp] theorem resetBlock_cursor : (resetBlock s).cursor = s.cfg.scanStart := rfl
@[simp] theorem resetBlock_pix : (resetBlock s).pix = false := rfl
@[simp] theorem resetBlock_rdv : (resetBlock s).rdv = false := rfl
@[simp] theorem resetBlock_skip : (resetBlock s).skip = false := rfl
@[simp] theorem resetBlock_fIllcmd : (resetBlock s).fIllcmd = false := rfl
@[simp] theorem resetBlock_fIllmode : (resetBlock s).fIllmode = false := rfl
@[simp] theorem resetBlock_fIllarg : (resetBlock s).fIllarg = false := rfl
@[simp] theorem resetBlock_deOps : (resetBlock s).deOps = [] := rfl
@[simp] theorem resetBlock_se : (resetBlock s).se = .idle := rfl
@[simp] theorem resetBlock_slot : (resetBlock s).slot = none := rfl
@[simp] theorem resetBlock_rowOe : (resetBlock s).rowOe = false := rfl
@[simp] theorem resetBlock_rowSel : (resetBlock s).rowSel = 0 := rfl
@[simp] theorem resetBlock_events : (resetBlock s).events = [] := rfl
@[simp] theorem resetBlock_hostIndex : (resetBlock s).hostIndex = s.hostIndex := rfl
@[simp] theorem resetBlock_host : (resetBlock s).host = s.host := rfl
@[simp] theorem resetBlock_statusReads : (resetBlock s).statusReads = s.statusReads := rfl
@[simp] theorem resetBlock_schedule : (resetBlock s).schedule = s.schedule := rfl
@[simp] theorem resetBlock_turns : (resetBlock s).turns = s.turns := rfl
@[simp] theorem resetBlock_busDraws : (resetBlock s).busDraws = s.busDraws := rfl
@[simp] theorem resetBlock_samples : (resetBlock s).samples = s.samples := rfl

/-! ### busy views -/

theorem deBusy_eq_false : deBusy s = false ↔ s.deOps = [] := by simp [deBusy]

theorem seBusy_eq_false : seBusy s = false ↔ s.se = .idle := by unfold seBusy; split <;> simp_all

end Sys2Proof.Machine
end

