-- ==== Sys2Proof/Laws/Exec.lean ====
section
/-! SUPPORT. What a command's acceptance can do, said once: every meaning either waits, raises one fault, is accepted with
no effect, starts the DE on the command's micro-operations, or starts the SE. -/

namespace Sys2Proof.Machine

/-- The ways the port treats command `i` in state `s` (30_encoding.md R111). -/
inductive Accepts (i : Instr) (s : State) : State → Prop
  | waits : Accepts i s s
  | raises (f : FaultFlag) (hf : f ≠ .illcmd) : Accepts i s (raiseFault f s)
  | nop (hi : i = .nop) : Accepts i s (accept s)
  | fence (hi : i = .fence) (hde : s.deOps = []) (hse : s.se = .idle) : Accepts i s (accept s)
  | draws (hi : i.op.isDrawing = true) (hde : s.deOps = []) :
      Accepts i s { accept s with deOps := i.microOps s.cfg }
  | scans (hi : i = .scanOnce) (hse : s.se = .idle) : Accepts i s { accept s with se := .sample }

theorem startDrawing_cases {i : Instr} {s t : State} {ops : List MicroOp} (h : startDrawing ops s = .next t)
    (hi : i.op.isDrawing = true) (hops : i.microOps s.cfg = ops) : Accepts i s t := by
  unfold startDrawing at h
  split at h
  · cases h; exact .waits
  · next hb =>
    cases h; subst hops
    exact .draws hi ((deBusy_eq_false s).mp (by simpa using hb))

theorem startDrawingIn_cases {i : Instr} {s t : State} {field : BitVec 3} {ops : Mode → List MicroOp}
    (h : startDrawingIn field ops s = .next t) (hi : i.op.isDrawing = true)
    (hops : i.microOps s.cfg = ((Mode.ofField field).map ops).getD []) : Accepts i s t := by
  unfold startDrawingIn at h
  split at h
  · cases h; exact .raises _ (by decide)
  · next m hm => exact startDrawing_cases h hi (by rw [hops, hm]; rfl)

/-- Everything the acceptance step of a decoded command can do. -/
theorem exec_cases {i : Instr} {s t : State} (h : exec i s = .next t) : Accepts i s t := by
  cases i with
  | nop => cases h; exact .nop rfl
  | writePixel x y mode v => exact startDrawingIn_cases h rfl rfl
  | readPixel x y => exact startDrawing_cases h rfl rfl
  | clear b => exact startDrawing_cases h rfl rfl
  | line x1 y1 x2 y2 mode => exact startDrawingIn_cases h rfl rfl
  | box x1 y1 x2 y2 mode => exact startDrawingIn_cases h rfl rfl
  | filledBox x1 y1 x2 y2 mode => exact startDrawingIn_cases h rfl rfl
  | circle xc yc r mode => exact startDrawingIn_cases h rfl rfl
  | glyph x y code g mode =>
    dsimp only [exec, execGlyph] at h
    split at h
    · cases h; exact .raises _ (by decide)
    · cases h; exact .raises _ (by decide)
    · next m bm hm hbm => exact startDrawing_cases h rfl (by simp only [Instr.microOps, hm, hbm])
  | testPattern id =>
    dsimp only [exec, execTestPattern] at h
    split at h
    · cases h; exact .raises _ (by decide)
    · next p hp => exact startDrawing_cases h rfl (by simp only [Instr.microOps, hp, Option.map, Option.getD])
  | scanOnce =>
    dsimp only [exec, execScanOnce] at h
    split at h
    · cases h; exact .waits
    · next hb => cases h; exact .scans rfl ((seBusy_eq_false s).mp (by simpa using hb))
  | fence =>
    dsimp only [exec, execFence] at h
    split at h
    · cases h; exact .waits
    · next hb =>
      cases h
      have hb' : deBusy s = false ∧ seBusy s = false := by simpa using hb
      exact .fence rfl ((deBusy_eq_false s).mp hb'.1) ((seBusy_eq_false s).mp hb'.2)

end Sys2Proof.Machine
end

