-- ==== Sys2Proof/Laws/Memory.lean ====
section
/-! SUPPORT. The framebuffer as data: a read after a write, the canonical form, and that equal reads are equal
framebuffers. -/

namespace Sys2Proof.Machine

theorem Memory.wf_tail {c : Host.Cell} {m : Memory} (h : Memory.wf (c :: m)) : Memory.wf m :=
  ⟨(List.pairwise_cons.mp h.1).2, fun d hd => h.2 d (List.mem_cons_of_mem _ hd)⟩

theorem Memory.read_below {m : Memory} {a : Nat} (h : ∀ c ∈ m, a < c.1) : m.read a = Memory.unlisted := by
  induction m with
  | nil => rfl
  | cons c m ih =>
    have hc := h c (List.mem_cons_self ..)
    rw [Memory.read, if_neg (Nat.ne_of_lt hc)]
    exact ih fun d hd => h d (List.mem_cons_of_mem _ hd)

theorem Memory.read_write_same {m : Memory} (hm : m.wf) (a : Nat) (b : Byte) : (m.write a b).read a = b := by
  induction m with
  | nil => unfold Memory.write; split <;> simp_all [Memory.read]
  | cons c m ih =>
    have hlt := (List.pairwise_cons.mp hm.1).1
    unfold Memory.write
    split
    · next hac =>
      split
      · next hb =>
        rw [hb]; refine Memory.read_below fun d hd => ?_
        rcases List.mem_cons.mp hd with rfl | hd
        · exact hac
        · exact hac.trans (hlt d hd)
      · simp [Memory.read]
    · split
      · next hac =>
        split
        · next hb => rw [hb]; exact Memory.read_below fun d hd => hac ▸ hlt d hd
        · simp [Memory.read]
      · next hne => rw [Memory.read, if_neg hne]; exact ih (Memory.wf_tail hm)

theorem Memory.read_write_other (m : Memory) {a a' : Nat} (h : a' ≠ a) (b : Byte) :
    (m.write a b).read a' = m.read a' := by
  induction m with
  | nil => unfold Memory.write; split <;> simp [Memory.read, h]
  | cons c m ih =>
    unfold Memory.write
    split
    · split <;> simp [Memory.read, h]
    · split
      · next hac =>
        have hc : a' ≠ c.1 := hac ▸ h
        split <;> simp [Memory.read, h, hc]
      · rw [Memory.read, Memory.read, ih]

theorem Memory.mem_write {m : Memory} {a : Nat} {b : Byte} {c : Host.Cell} (h : c ∈ m.write a b) :
    c ∈ m ∨ (c = (a, b) ∧ b ≠ Memory.unlisted) := by
  induction m with
  | nil => unfold Memory.write at h; split at h <;> simp_all
  | cons d m ih =>
    unfold Memory.write at h
    split at h
    · split at h
      · exact .inl h
      · rcases List.mem_cons.mp h with h | h
        · exact .inr ⟨h, by assumption⟩
        · exact .inl h
    · split at h
      · split at h
        · exact .inl (List.mem_cons_of_mem _ h)
        · rcases List.mem_cons.mp h with h | h
          · exact .inr ⟨h, by assumption⟩
          · exact .inl (List.mem_cons_of_mem _ h)
      · rcases List.mem_cons.mp h with h | h
        · exact .inl (h ▸ List.mem_cons_self ..)
        · exact (ih h).imp_left (List.mem_cons_of_mem _)

theorem Memory.write_wf {m : Memory} (hm : m.wf) (a : Nat) (b : Byte) : (m.write a b).wf := by
  refine ⟨?_, fun c hc => (Memory.mem_write hc).elim (hm.2 c) fun h => h.1 ▸ h.2⟩
  induction m with
  | nil => unfold Memory.write; split <;> simp
  | cons c m ih =>
    obtain ⟨hlt, hp⟩ := List.pairwise_cons.mp hm.1
    unfold Memory.write
    split
    · next hac =>
      split
      · exact hm.1
      · refine List.pairwise_cons.mpr ⟨fun d hd => ?_, hm.1⟩
        rcases List.mem_cons.mp hd with rfl | hd
        · exact hac
        · exact hac.trans (hlt d hd)
    · split
      · next hac =>
        split
        · exact hp
        · exact List.pairwise_cons.mpr ⟨fun d hd => hac ▸ hlt d hd, hp⟩
      · next hnl hne =>
        refine List.pairwise_cons.mpr ⟨fun d hd => ?_, ih (Memory.wf_tail hm)⟩
        rcases Memory.mem_write hd with hd | ⟨rfl, -⟩
        · exact hlt d hd
        · show c.1 < a; omega

theorem Memory.write_inside {m : Memory} {n a : Nat} (hm : ∀ c ∈ m, c.1 < n) (ha : a < n) (b : Byte) :
    ∀ c ∈ m.write a b, c.1 < n := fun c hc =>
  (Memory.mem_write hc).elim (hm c) fun h => by rw [h.1]; exact ha

theorem Memory.read_mem {m : Memory} (hm : m.wf) {c : Host.Cell} (hc : c ∈ m) : m.read c.1 = c.2 := by
  induction m with
  | nil => cases hc
  | cons d m ih =>
    obtain ⟨hlt, -⟩ := List.pairwise_cons.mp hm.1
    rcases List.mem_cons.mp hc with rfl | hc
    · simp [Memory.read]
    · rw [Memory.read, if_neg (Nat.ne_of_gt (hlt c hc))]; exact ih (Memory.wf_tail hm) hc

theorem Memory.ext_read {m m' : Memory} (hm : m.wf) (hm' : m'.wf) (h : ∀ a, m.read a = m'.read a) : m = m' := by
  induction m generalizing m' with
  | nil =>
    cases m' with
    | nil => rfl
    | cons d m' =>
      have := h d.1
      rw [Memory.read_mem hm' (List.mem_cons_self ..)] at this
      exact absurd this.symm (hm'.2 d (List.mem_cons_self ..))
  | cons c m ih =>
    cases m' with
    | nil =>
      have := h c.1
      rw [Memory.read_mem hm (List.mem_cons_self ..)] at this
      exact absurd this (hm.2 c (List.mem_cons_self ..))
    | cons d m' =>
      have hlt := (List.pairwise_cons.mp hm.1).1
      have hlt' := (List.pairwise_cons.mp hm'.1).1
      have hc := Memory.read_mem hm (List.mem_cons_self ..)
      have hd := Memory.read_mem hm' (List.mem_cons_self ..)
      have hkey : c.1 = d.1 := by
        rcases Nat.lt_trichotomy c.1 d.1 with hl | he | hg
        · refine absurd ((h c.1).symm.trans hc).symm ?_
          rw [Memory.read_below]
          · exact hm.2 c (List.mem_cons_self ..)
          · intro e he
            rcases List.mem_cons.mp he with rfl | he
            · exact hl
            · exact hl.trans (hlt' e he)
        · exact he
        · refine absurd ((h d.1).trans hd).symm ?_
          rw [Memory.read_below]
          · exact hm'.2 d (List.mem_cons_self ..)
          · intro e he
            rcases List.mem_cons.mp he with rfl | he
            · exact hg
            · exact hg.trans (hlt e he)
      have hval : c.2 = d.2 := by rw [← hc, ← hd, ← hkey]; exact h c.1
      have hcd : c = d := Prod.ext hkey hval
      subst hcd
      congr 1
      refine ih (Memory.wf_tail hm) (Memory.wf_tail hm') fun a => ?_
      by_cases ha : a = c.1
      · subst ha; rw [Memory.read_below hlt, Memory.read_below hlt']
      · have := h a
        rwa [Memory.read, Memory.read, if_neg ha, if_neg ha] at this
end Sys2Proof.Machine
end

