-- ==== Sys2Proof/Laws/Pixel.lean ====
section
/-! SUPPORT. PixelAddressing and the pixel operations: the mask is one bit, distinct pixels are distinct bits, what
setting one pixel does to every pixel and byte. -/

namespace Sys2Proof.Machine
theorem pixelMask_eq_twoPow (x : Int) : pixelMask x = BitVec.twoPow 8 (7 - x.toNat % 8) := by
  have key : ∀ p : Fin 8, 0x80#8 >>> (p : Nat) = BitVec.twoPow 8 (7 - p) := by decide
  exact key ⟨x.toNat % 8, Nat.mod_lt _ (by omega)⟩

theorem pixelBit_eq_getLsbD (c : Config) (fb : Memory) (x y : Int) :
    pixelBit c fb x y = (fb.read (c.offset x y)).getLsbD (7 - x.toNat % 8) := by
  rw [pixelBit, pixelMask_eq_twoPow, BitVec.and_twoPow]
  split <;> rename_i h
  · have : BitVec.twoPow 8 (7 - x.toNat % 8) ≠ 0#8 := by
      have key : ∀ p : Fin 8, BitVec.twoPow 8 (7 - p) ≠ 0#8 := by decide
      exact key ⟨x.toNat % 8, Nat.mod_lt _ (by omega)⟩
    simp [h, this]
  · simpa using h

theorem getLsbD_setBit (old : Byte) (p : Nat) (n : Bool) (i : Nat) (hi : i < 8) :
    (if n then old ||| BitVec.twoPow 8 p else old &&& ~~~(BitVec.twoPow 8 p)).getLsbD i =
      if i = p then n else old.getLsbD i := by
  cases n <;> simp [hi] <;> by_cases h : i = p <;> simp_all [eq_comm]

theorem Config.offset_bit_inj {c : Config} (hc : c.wf) {x y x' y' : Int} (h : c.inRange x y = true)
    (h' : c.inRange x' y' = true) (ho : c.offset x y = c.offset x' y') (hb : x.toNat % 8 = x'.toNat % 8) :
    x = x' ∧ y = y' := by
  obtain ⟨hw, hw8, -⟩ := hc
  simp only [Config.inRange, Bool.and_eq_true, decide_eq_true_eq] at h h'
  obtain ⟨⟨⟨h1, h2⟩, h3⟩, h4⟩ := h
  obtain ⟨⟨⟨h1', h2'⟩, h3'⟩, h4'⟩ := h'
  have hx : x.toNat / 8 < c.bytesPerRow := by unfold Config.bytesPerRow; omega
  have hx' : x'.toNat / 8 < c.bytesPerRow := by unfold Config.bytesPerRow; omega
  unfold Config.offset at ho
  have hd : y.toNat = y'.toNat := by
    have := congrArg (· / c.bytesPerRow) ho
    rwa [Nat.mul_comm, Nat.mul_add_div (by omega), Nat.div_eq_of_lt hx, Nat.mul_comm y'.toNat,
      Nat.mul_add_div (by omega), Nat.div_eq_of_lt hx', Nat.add_zero, Nat.add_zero] at this
  have hq : x.toNat / 8 = x'.toNat / 8 := by rw [hd] at ho; omega
  have hxx : x.toNat = x'.toNat := by omega
  omega

theorem offset_lt {c : Config} (hc : c.wf) {x y : Int} (h : c.inRange x y = true) : c.offset x y < c.fbBytes := by
  obtain ⟨hw, hw8, -⟩ := hc
  simp only [Config.inRange, Bool.and_eq_true, decide_eq_true_eq] at h
  obtain ⟨⟨⟨h1, h2⟩, h3⟩, h4⟩ := h
  have hx : x.toNat / 8 < c.bytesPerRow := by unfold Config.bytesPerRow; omega
  have hy : y.toNat + 1 ≤ c.height := by omega
  have := Nat.mul_le_mul_left c.bytesPerRow hy
  unfold Config.offset Config.fbBytes
  rw [Nat.mul_comm y.toNat]
  rw [Nat.mul_add] at this
  omega

/-- The byte of a pixel after that pixel is set: its one bit, and the seven others as they were. -/
theorem read_putPixel_offset {c : Config} {fb : Memory} (hfb : fb.wf) (x y : Int) (n : Bool) (i : Nat) (hi : i < 8) :
    ((putPixel c fb x y n).read (c.offset x y)).getLsbD i =
      if i = 7 - x.toNat % 8 then n else (fb.read (c.offset x y)).getLsbD i := by
  rw [putPixel, Memory.read_write_same hfb, pixelMask_eq_twoPow, getLsbD_setBit _ _ _ _ hi]

theorem read_putPixel_other (c : Config) (fb : Memory) (x y : Int) (n : Bool) {a : Nat} (h : a ≠ c.offset x y) :
    (putPixel c fb x y n).read a = fb.read a := Memory.read_write_other fb h _

theorem putPixel_wf {fb : Memory} (hfb : fb.wf) (c : Config) (x y : Int) (n : Bool) : (putPixel c fb x y n).wf :=
  Memory.write_wf hfb _ _

theorem pixelBit_putPixel_same {c : Config} {fb : Memory} (hfb : fb.wf) (x y : Int) (n : Bool) :
    pixelBit c (putPixel c fb x y n) x y = n := by
  rw [pixelBit_eq_getLsbD, read_putPixel_offset hfb x y n _ (by omega), if_pos rfl]

theorem pixelBit_putPixel_other {c : Config} (hc : c.wf) {fb : Memory} (hfb : fb.wf) {x y x' y' : Int} (n : Bool)
    (h : c.inRange x y = true) (h' : c.inRange x' y' = true) (hne : ¬(x' = x ∧ y' = y)) :
    pixelBit c (putPixel c fb x y n) x' y' = pixelBit c fb x' y' := by
  rw [pixelBit_eq_getLsbD, pixelBit_eq_getLsbD]
  by_cases ho : c.offset x' y' = c.offset x y
  · rw [ho, read_putPixel_offset hfb x y n _ (by omega), if_neg]
    intro hb
    exact hne (Config.offset_bit_inj hc h' h ho (by omega))
  · rw [read_putPixel_other c fb x y n ho]

/-- What PIXOP does to one pixel: blended where it is the addressed one, else as it was. -/
theorem pixelBit_pixopFb {c : Config} (hc : c.wf) {fb : Memory} (hfb : fb.wf) (x y : Int) (mode : Mode) (v : Bool)
    {x' y' : Int} (h' : c.inRange x' y' = true) :
    pixelBit c (pixopFb c fb x y mode v) x' y' =
      if x' = x ∧ y' = y then blend mode (pixelBit c fb x y) v else pixelBit c fb x' y' := by
  unfold pixopFb
  split
  · next h =>
    split
    · next heq => rw [heq.1, heq.2, pixelBit_putPixel_same hfb]
    · next hne => exact pixelBit_putPixel_other hc hfb _ h h' hne
  · next h => rw [if_neg]; rintro ⟨rfl, rfl⟩; exact h h'

theorem pixopFb_wf {fb : Memory} (hfb : fb.wf) (c : Config) (x y : Int) (mode : Mode) (v : Bool) :
    (pixopFb c fb x y mode v).wf := by
  unfold pixopFb; split
  · exact putPixel_wf hfb ..
  · exact hfb

theorem pixopFb_inside {c : Config} (hc : c.wf) {fb : Memory} (hfb : ∀ d ∈ fb, d.1 < c.fbBytes) (x y : Int) (mode : Mode)
    (v : Bool) : ∀ d ∈ pixopFb c fb x y mode v, d.1 < c.fbBytes := by
  unfold pixopFb; split
  · next h => exact Memory.write_inside hfb (offset_lt hc h) _
  · exact hfb

theorem read_pixopFb_other (c : Config) (fb : Memory) (x y : Int) (mode : Mode) (v : Bool) {a : Nat}
    (h : a ≠ c.offset x y) : (pixopFb c fb x y mode v).read a = fb.read a := by
  unfold pixopFb; split
  · exact read_putPixel_other c fb x y _ h
  · rfl

end Sys2Proof.Machine
end

