-- ==== Sys2Proof/Laws/Agents.lean ====
section
/-! SUPPORT. What one step of each agent can do, and what one step of the machine can do, said once. -/

namespace Sys2Proof.Machine

/-- Everything the port's step can do (30_encoding.md R111). -/
theorem portStep_cases {s : State} {r : Result} (h : portStep s = some r) :
    ∃ w, s.slot = some w ∧
      ((∃ e, decode w = .error e ∧ r = .next (raiseFault .illcmd s)) ∨
        (∃ i t, decode w = .ok i ∧ exec i s = r ∧
          (r = .next t ∧ t.slot = none ∧ Accepts i s t ∨ ∀ t, r ≠ .next t))) := by
  unfold portStep at h
  split at h
  · cases h
  · next w hw =>
    refine ⟨w, hw, ?_⟩
    split at h
    · next e he => cases h; exact .inl ⟨e, he, rfl⟩
    · next i hi =>
      split at h
      · next t ht =>
        split at h
        · next hs => cases h; exact .inr ⟨i, t, hi, ht, .inl ⟨rfl, by simpa using hs, exec_cases ht⟩⟩
        · cases h
      · next hn => cases h; exact .inr ⟨i, s, hi, rfl, .inr fun t ht => hn t ht⟩

/-- Everything a micro-operation can do when it does not stop (20_memory.md R79). -/
theorem perform_next {op : MicroOp} {s t : State} (h : perform op s = .next t) :
    t = { s with fb := fbAfter s.cfg s.fb op } ∧ (∀ x y, op ≠ .rdpix x y) ∧ op.ok s.cfg ∨
      ∃ x y, op = .rdpix x y ∧
        t = { s with pix := s.cfg.inRange x y && pixelBit s.cfg s.fb x y, rdv := s.cfg.inRange x y } := by
  cases op with
  | pixop x y mode v => cases h; exact .inl ⟨rfl, by simp, trivial⟩
  | rdpix x y =>
    refine .inr ⟨x, y, rfl, ?_⟩
    dsimp only [perform, rdpix] at h
    split at h <;> rename_i hr <;> cases h <;> simp [hr]
  | fill i b =>
    dsimp only [perform, fill] at h
    split at h
    · next hi => cases h; exact .inl ⟨rfl, by simp, hi⟩
    · cases h

/-- A micro-operation that names only bytes that exist does not stop. -/
theorem perform_ok {op : MicroOp} {s : State} (h : op.ok s.cfg) : ∃ t, perform op s = .next t := by
  cases op with
  | pixop x y mode v => exact ⟨_, rfl⟩
  | rdpix x y => dsimp only [perform, rdpix]; split <;> exact ⟨_, rfl⟩
  | fill i b => exact ⟨_, by dsimp only [perform, fill]; rw [if_pos h]⟩

/-- The DE moves exactly when it has a micro-operation left (10_state.md R54). -/
theorem deStep_eq_some {s : State} {r : Result} :
    deStep s = some r ↔ ∃ op rest, s.deOps = op :: rest ∧ r = perform op { s with deOps := rest } := by
  unfold deStep
  split
  · next h => simp [h]
  · next op rest h =>
    simp only [h, Option.some.injEq]
    constructor
    · rintro rfl; exact ⟨op, rest, rfl, rfl⟩
    · rintro ⟨op', rest', he, hr⟩; cases he; exact hr.symm

theorem mem_enabled {s : State} {a : Agent} : a ∈ enabled s ↔ (agentStep a s).isSome = true := by
  cases a <;> simp [enabled]

theorem pick_mem {want a : Agent} {as : List Agent} (h : pick want as = some a) : a ∈ as := by
  unfold pick at h
  split at h
  · cases h
  · cases h; simp
  · split at h <;> cases h
    · assumption
    · simp

theorem pick_eq_none {want : Agent} {as : List Agent} : pick want as = none ↔ as = [] := by
  unfold pick; split <;> simp

theorem pick_want {want : Agent} {as : List Agent} (h : want ∈ as) : pick want as = some want := by
  match as, h with
  | [a], h => cases List.mem_singleton.mp h; rfl
  | a :: b :: rest, h => simp only [pick, if_pos h]

/-- One step of the machine is one step of an agent that can move, or nothing where none can (20_memory.md R83). -/
theorem step_cases {s : State} {r : Result} (h : step s = r) :
    (r = .next s ∧ ∀ a, agentStep a (drawTurn s).2 = none) ∨ ∃ a, agentStep a (drawTurn s).2 = some r := by
  unfold step moveOne at h
  split at h
  · next hp =>
    refine .inl ⟨h.symm, fun a => ?_⟩
    have : a ∉ enabled (drawTurn s).2 := by rw [pick_eq_none.mp hp]; simp
    simpa [mem_enabled] using this
  · next a hp =>
    obtain ⟨r', hr'⟩ := Option.isSome_iff_exists.mp (mem_enabled.mp (pick_mem hp))
    exact .inr ⟨a, by rw [hr'] at h ⊢; exact congrArg some h⟩

end Sys2Proof.Machine
end

