-- ==== Sys2Proof/Laws/Decode.lean ====
section
/-! SUPPORT. A command word as its eight fields: the fields of a joined word, that a word is its fields joined, the masks
field by field, the opcode map in both directions, and the decoder's two outcomes. -/

namespace Sys2Proof

/-- A word put together from eight bit fields (30_encoding.md R100); `pack` makes one, and every mask is one. -/
def joinFields (o : BitVec 4) (m : BitVec 3) (v : BitVec 1) (x : BitVec 8) (a b c d : BitVec 12) : Word :=
  (o ++ m ++ v ++ x ++ a ++ b ++ c ++ d : BitVec (4 + 3 + 1 + 8 + 12 + 12 + 12 + 12))

section
variable (o o' : BitVec 4) (m m' : BitVec 3) (v v' : BitVec 1) (x x' : BitVec 8) (a a' b b' c c' d d' : BitVec 12)

theorem getLsbD_joinFields (i : Nat) : (joinFields o m v x a b c d).getLsbD i =
    if i < 12 then d.getLsbD i
    else if i < 24 then c.getLsbD (i - 12)
    else if i < 36 then b.getLsbD (i - 24)
    else if i < 48 then a.getLsbD (i - 36)
    else if i < 56 then x.getLsbD (i - 48)
    else if i < 57 then v.getLsbD (i - 56)
    else if i < 60 then m.getLsbD (i - 57)
    else o.getLsbD (i - 60) := by
  unfold joinFields
  simp only [BitVec.getLsbD_append]
  repeat' split
  all_goals first | rfl | (exfalso; omega)

theorem opcField_joinFields : opcField (joinFields o m v x a b c d) = o := by
  apply BitVec.eq_of_getLsbD_eq
  intro i hi
  simp only [opcField, BitVec.getLsbD_extractLsb', getLsbD_joinFields, hi, decide_true, Bool.true_and]
  rw [if_neg (by omega), if_neg (by omega), if_neg (by omega), if_neg (by omega), if_neg (by omega), if_neg (by omega),
    if_neg (by omega), Nat.add_sub_cancel_left]

theorem modeField_joinFields : modeField (joinFields o m v x a b c d) = m := by
  apply BitVec.eq_of_getLsbD_eq
  intro i hi
  simp only [modeField, BitVec.getLsbD_extractLsb', getLsbD_joinFields, hi, decide_true, Bool.true_and]
  rw [if_neg (by omega), if_neg (by omega), if_neg (by omega), if_neg (by omega), if_neg (by omega), if_neg (by omega),
    if_pos (by omega), Nat.add_sub_cancel_left]

theorem vBits_joinFields : (joinFields o m v x a b c d).extractLsb' 56 1 = v := by
  apply BitVec.eq_of_getLsbD_eq
  intro i hi
  simp only [BitVec.getLsbD_extractLsb', getLsbD_joinFields, hi, decide_true, Bool.true_and]
  rw [if_neg (by omega), if_neg (by omega), if_neg (by omega), if_neg (by omega), if_neg (by omega), if_pos (by omega),
    Nat.add_sub_cancel_left]

theorem auxField_joinFields : auxField (joinFields o m v x a b c d) = x := by
  apply BitVec.eq_of_getLsbD_eq
  intro i hi
  simp only [auxField, BitVec.getLsbD_extractLsb', getLsbD_joinFields, hi, decide_true, Bool.true_and]
  rw [if_neg (by omega), if_neg (by omega), if_neg (by omega), if_neg (by omega), if_pos (by omega),
    Nat.add_sub_cancel_left]

theorem aBits_joinFields : (joinFields o m v x a b c d).extractLsb' 36 12 = a := by
  apply BitVec.eq_of_getLsbD_eq
  intro i hi
  simp only [BitVec.getLsbD_extractLsb', getLsbD_joinFields, hi, decide_true, Bool.true_and]
  rw [if_neg (by omega), if_neg (by omega), if_neg (by omega), if_pos (by omega), Nat.add_sub_cancel_left]

theorem bBits_joinFields : (joinFields o m v x a b c d).extractLsb' 24 12 = b := by
  apply BitVec.eq_of_getLsbD_eq
  intro i hi
  simp only [BitVec.getLsbD_extractLsb', getLsbD_joinFields, hi, decide_true, Bool.true_and]
  rw [if_neg (by omega), if_neg (by omega), if_pos (by omega), Nat.add_sub_cancel_left]

theorem cBits_joinFields : (joinFields o m v x a b c d).extractLsb' 12 12 = c := by
  apply BitVec.eq_of_getLsbD_eq
  intro i hi
  simp only [BitVec.getLsbD_extractLsb', getLsbD_joinFields, hi, decide_true, Bool.true_and]
  rw [if_neg (by omega), if_pos (by omega), Nat.add_sub_cancel_left]

theorem dBits_joinFields : (joinFields o m v x a b c d).extractLsb' 0 12 = d := by
  apply BitVec.eq_of_getLsbD_eq
  intro i hi
  simp only [BitVec.getLsbD_extractLsb', getLsbD_joinFields, hi, decide_true, Bool.true_and, Nat.zero_add, if_true]

theorem joinFields_and :
    joinFields o m v x a b c d &&& joinFields o' m' v' x' a' b' c' d' =
      joinFields (o &&& o') (m &&& m') (v &&& v') (x &&& x') (a &&& a') (b &&& b') (c &&& c') (d &&& d') := by
  simp only [joinFields, ← BitVec.and_append]

theorem joinFields_inj : joinFields o m v x a b c d = joinFields o' m' v' x' a' b' c' d' ↔
    o = o' ∧ m = m' ∧ v = v' ∧ x = x' ∧ a = a' ∧ b = b' ∧ c = c' ∧ d = d' := by
  refine ⟨fun h => ⟨?_, ?_, ?_, ?_, ?_, ?_, ?_, ?_⟩, ?_⟩
  · simpa only [opcField_joinFields] using congrArg opcField h
  · simpa only [modeField_joinFields] using congrArg modeField h
  · simpa only [vBits_joinFields] using congrArg (BitVec.extractLsb' 56 1) h
  · simpa only [auxField_joinFields] using congrArg auxField h
  · simpa only [aBits_joinFields] using congrArg (BitVec.extractLsb' 36 12) h
  · simpa only [bBits_joinFields] using congrArg (BitVec.extractLsb' 24 12) h
  · simpa only [cBits_joinFields] using congrArg (BitVec.extractLsb' 12 12) h
  · simpa only [dBits_joinFields] using congrArg (BitVec.extractLsb' 0 12) h
  · rintro ⟨rfl, rfl, rfl, rfl, rfl, rfl, rfl, rfl⟩; rfl

end

/-- Every word is its eight fields joined. -/
theorem word_eq_joinFields (w : Word) : w = joinFields (opcField w) (modeField w) (BitVec.ofBool (vField w)) (auxField w)
    (BitVec.ofInt 12 (aField w)) (BitVec.ofInt 12 (bField w)) (BitVec.ofInt 12 (cField w))
    (BitVec.ofInt 12 (dField w)) := by
  apply BitVec.eq_of_getLsbD_eq
  intro i hi
  rw [getLsbD_joinFields]
  simp only [opcField, modeField, auxField, aField, bField, cField, dField, vField, BitVec.ofInt_toInt,
    BitVec.getLsbD_extractLsb', BitVec.getLsbD_ofBool]
  repeat' split
  all_goals rw [decide_eq_true (by omega), Bool.true_and]; congr 1; omega

theorem pack_eq_joinFields (op : Op) (mode : BitVec 3) (v : Bool) (aux : Byte) (a b c d : Int) :
    pack op mode v aux a b c d = joinFields op.code mode (BitVec.ofBool v) aux (BitVec.ofInt 12 a) (BitVec.ofInt 12 b)
      (BitVec.ofInt 12 c) (BitVec.ofInt 12 d) := rfl

/-- sext_12 undoes the narrowing of every coordinate that twelve bits hold (00_scope.md R11). -/
theorem toInt_ofInt12 {n : Int} (h : coordOk n = true) : (BitVec.ofInt 12 n).toInt = n := by
  simp only [coordOk, Bool.and_eq_true, decide_eq_true_eq] at h
  rw [BitVec.toInt_ofInt]
  exact Int.bmod_eq_of_le (by omega) (by omega)

theorem coordOk_toInt (x : BitVec 12) : coordOk x.toInt = true := by
  have h1 := BitVec.le_toInt x
  have h2 := BitVec.toInt_lt (x := x)
  simp only [coordOk, Bool.and_eq_true, decide_eq_true_eq]
  omega

section
variable (op : Op) (mode : BitVec 3) (v : Bool) (aux : Byte) (a b c d : Int)

theorem opcField_pack : opcField (pack op mode v aux a b c d) = op.code := opcField_joinFields ..

theorem modeField_pack : modeField (pack op mode v aux a b c d) = mode := modeField_joinFields ..

theorem vField_pack : vField (pack op mode v aux a b c d) = v := by
  unfold vField
  rw [pack_eq_joinFields, getLsbD_joinFields]
  simp

theorem auxField_pack : auxField (pack op mode v aux a b c d) = aux := auxField_joinFields ..

theorem aField_pack (ha : coordOk a = true) : aField (pack op mode v aux a b c d) = a := by
  rw [aField, pack_eq_joinFields, aBits_joinFields, toInt_ofInt12 ha]

theorem bField_pack (hb : coordOk b = true) : bField (pack op mode v aux a b c d) = b := by
  rw [bField, pack_eq_joinFields, bBits_joinFields, toInt_ofInt12 hb]

theorem cField_pack (hc : coordOk c = true) : cField (pack op mode v aux a b c d) = c := by
  rw [cField, pack_eq_joinFields, cBits_joinFields, toInt_ofInt12 hc]

theorem dField_pack (hd : coordOk d = true) : dField (pack op mode v aux a b c d) = d := by
  rw [dField, pack_eq_joinFields, dBits_joinFields, toInt_ofInt12 hd]

end

theorem code_ofCode (op : Op) : Op.ofCode op.code = some op := by cases op <;> rfl

theorem ofCode_eq_some {c : BitVec 4} {op : Op} : Op.ofCode c = some op ↔ c = op.code := by
  refine ⟨fun h => ?_, fun h => h ▸ code_ofCode op⟩
  revert c; cases op <;> decide

theorem ofCode_eq_none {c : BitVec 4} : Op.ofCode c = none ↔ 0xC ≤ c.toNat := by revert c; decide

theorem code_shift_eq_joinFields (op : Op) : (op.code.setWidth 64) <<< 60 = joinFields op.code 0 0 0 0 0 0 0 := by
  cases op <;> decide

/-- Each format's mask, field by field (30_encoding.md R104): all ones where a field is OPC or reserved. -/
theorem mask_n : Format.n.mask = joinFields 15 7 1 255 4095 4095 4095 4095 := by decide
theorem mask_p : Format.p.mask = joinFields 15 0 0 255 0 0 4095 4095 := by decide
theorem mask_r : Format.r.mask = joinFields 15 7 1 255 0 0 4095 4095 := by decide
theorem mask_f : Format.f.mask = joinFields 15 7 1 0 4095 4095 4095 4095 := by decide
theorem mask_l : Format.l.mask = joinFields 15 0 1 255 0 0 0 0 := by decide
theorem mask_ci : Format.ci.mask = joinFields 15 0 1 255 0 0 0 4095 := by decide
theorem mask_g : Format.g.mask = joinFields 15 0 0 0 0 0 4095 4095 := by decide
theorem mask_t : Format.t.mask = joinFields 15 7 1 0 4095 4095 4095 4095 := by decide

/-- What the decoder accepts: the opcode of an operation and its mask's bits (30_encoding.md R106). -/
theorem decode_eq_ok {w : Word} {i : Instr} : decode w = .ok i ↔
    ∃ op : Op, opcField w = op.code ∧ w &&& op.format.mask = (op.code.setWidth 64) <<< 60 ∧ i = op.build w := by
  unfold decode
  split
  · next h =>
    refine ⟨fun h' => (by cases h'), ?_⟩
    rintro ⟨op, ho, -⟩
    rw [ho, code_ofCode] at h
    cases h
  · next op h =>
    rw [ofCode_eq_some] at h
    split
    · next hm =>
      constructor
      · intro h'; cases h'; exact ⟨op, h, hm, rfl⟩
      · rintro ⟨op', ho, -, rfl⟩
        have : op = op' := Option.some.inj (by rw [← code_ofCode op, ← code_ofCode op', ← h, ← ho])
        rw [this]
    · next hm =>
      refine ⟨fun h' => (by cases h'), ?_⟩
      rintro ⟨op', ho, hm', -⟩
      have : op = op' := Option.some.inj (by rw [← code_ofCode op, ← code_ofCode op', ← h, ← ho])
      exact absurd (this ▸ hm') hm

end Sys2Proof
end

