-- ==== Sys2Proof/Laws/PerInstr.lean ====
section
/-! SUPPORT. Per command: the word that `encode` makes carries the command's own opcode (30_encoding.md R106). -/

namespace Sys2Proof.Laws.OpcodeOfEncoding

/-- Bits 63:60 of the encoded command are its opcode value. -/
def Statement (i : Instr) : Prop := opcField (encode i) = i.op.code

theorem nop : Statement .nop := opcField_pack ..
theorem writePixel (x y : Int) (mode : BitVec 3) (v : Bool) : Statement (.writePixel x y mode v) := opcField_pack ..
theorem readPixel (x y : Int) : Statement (.readPixel x y) := opcField_pack ..
theorem clear (fill : Byte) : Statement (.clear fill) := opcField_pack ..
theorem line (x1 y1 x2 y2 : Int) (mode : BitVec 3) : Statement (.line x1 y1 x2 y2 mode) := opcField_pack ..
theorem box (x1 y1 x2 y2 : Int) (mode : BitVec 3) : Statement (.box x1 y1 x2 y2 mode) := opcField_pack ..
theorem filledBox (x1 y1 x2 y2 : Int) (mode : BitVec 3) : Statement (.filledBox x1 y1 x2 y2 mode) := opcField_pack ..
theorem circle (xc yc r : Int) (mode : BitVec 3) : Statement (.circle xc yc r mode) := opcField_pack ..
theorem glyph (x y : Int) (code : Byte) (g : Geometry) (mode : BitVec 3) : Statement (.glyph x y code g mode) :=
  opcField_pack ..
theorem testPattern (id : Byte) : Statement (.testPattern id) := opcField_pack ..
theorem scanOnce : Statement .scanOnce := opcField_pack ..
theorem fence : Statement .fence := opcField_pack ..

end Sys2Proof.Laws.OpcodeOfEncoding
end

