-- ==== Sys2Proof/Tests/Slice0.lean ====
section
/-! SUPPORT. The model's own tests: well-formedness, decoding of words written out from the spec's encoding, one-step
vectors of 95_test_vectors.md, and for each obligation with hypotheses a concrete case that meets them. -/

namespace Sys2Proof.Tests

open Sys2Proof Sys2Proof.Machine

/-! ### Helpers -/

/-- The next state of an answer. -/
def nextOf : Result → Option State
  | .next t => some t
  | .fault _ => none
  | .refused _ => none

/-- The state after reset with a word in the slot and the port to move. -/
def slotted (w : Word) : State := { State.reset with slot := some w, schedule := [.port] }

/-- The state after reset with a command in the slot and the port to move. -/
abbrev given (i : Instr) : State := slotted (encode i)

/-- The state after reset with the DE at work on a list and the DE to move. -/
def drawing (ops : List MicroOp) : State := { State.reset with deOps := ops, schedule := [.de] }

/-- The state after reset with the SE in a phase of slice 0 and the SE to move. -/
def scanning (phase : Phase) (oe : Bool) : State :=
  { State.reset with se := .transfer 0 phase, rowOe := oe, schedule := [.se] }

/-- The state after reset with the host's moves and the host to move. -/
def hosted (moves : List HostMove) : State := { State.reset with host := moves, schedule := [.host] }

/-- The state after reset with its first byte 0xA5 (95_test_vectors.md section 2.3). -/
def a5 : State := { State.reset with fb := [(0, 0xA5)] }

theorem reference_wf : Config.reference.wf := by decide +kernel

/-- A state of the reference block with both engines idle meets the invariant if its framebuffer does. -/
theorem idle_inv {s : State} (hc : s.cfg = Config.reference) (hf : s.fb.wf) (hi : ∀ c ∈ s.fb, c.1 < 64)
    (hd : s.deOps = []) (hs : s.se = .idle) : s.Inv :=
  ⟨hc ▸ reference_wf, hf, fun c h => hc ▸ hi c h, by simp [hd], hs ▸ trivial⟩

theorem reset_inv : State.reset.Inv := idle_inv rfl (by decide) (by decide) rfl rfl

theorem slotted_inv (w : Word) : (slotted w).Inv := idle_inv rfl ⟨.nil, nofun⟩ nofun rfl rfl

theorem a5_inv : a5.Inv := idle_inv rfl (by decide) (by decide) rfl rfl

theorem slotted_quiet (w : Word) : quiet (slotted w) := ⟨rfl, rfl, rfl⟩

/-! ### WellFormed -/

theorem test_wf_accepts_the_ends : ([.writePixel (-2048) 2047 7 true, .readPixel 2047 (-2048),
    .line (-2048) 2047 2047 (-2048) 0, .circle 2047 (-2048) (-2048) 4, .glyph (-2048) 2047 0xFF .tall 7, .clear 0xFF,
    .testPattern 0xFF, .nop, .scanOnce, .fence] : List Instr).all Instr.wf = true := by decide

theorem test_wf_refuses_pixel_coordinates : ([.writePixel 2048 0 0 true, .writePixel 0 (-2049) 0 true,
    .readPixel (-2049) 0, .readPixel 0 2048, .glyph 2048 0 0 .tall 0, .glyph 0 (-2049) 0 .compact 0] : List Instr).all
    (fun i => !i.wf) = true := by decide

theorem test_wf_refuses_line_coordinates : ([.line 2048 0 0 0 0, .line 0 2048 0 0 0, .line 0 0 (-2049) 0 0,
    .line 0 0 0 (-2049) 0] : List Instr).all (fun i => !i.wf) = true := by decide

theorem test_wf_refuses_box_coordinates : ([.box (-2049) 0 0 0 0, .box 0 2048 0 0 0, .box 0 0 2048 0 0,
    .box 0 0 0 (-2049) 0, .filledBox 2048 0 0 0 0, .filledBox 0 (-2049) 0 0 0, .filledBox 0 0 (-2049) 0 0,
    .filledBox 0 0 0 2048 0] : List Instr).all (fun i => !i.wf) = true := by decide

theorem test_wf_refuses_circle_operands : ([.circle 2048 0 0 0, .circle 0 (-2049) 0 0, .circle 0 0 2048 0] :
    List Instr).all (fun i => !i.wf) = true := by decide

/-! ### Decoding: a word written out from 30_encoding.md R104 and R106 for every constructor -/

theorem test_decode_nop : decode 0x0000000000000000 = .ok .nop := by decide
/-- Bit by bit: OPC 0001, MODE 100, V 1, AUX, A = -1, B = 2047, C, D. -/
theorem test_decode_write_pixel :
    decode 0b0001100100000000111111111111011111111111000000000000000000000000 = .ok (.writePixel (-1) 2047 4 true) := by
  decide +kernel
theorem test_decode_read_pixel : decode 0x200001F00F000000 = .ok (.readPixel 31 15) := by decide +kernel
/-- Bit by bit: OPC 0011, MODE, V, AUX 10100101. -/
theorem test_decode_clear :
    decode 0b0011000010100101000000000000000000000000000000000000000000000000 = .ok (.clear 0xA5) := by decide +kernel
theorem test_decode_line : decode 0x4000FFDFFF003002 = .ok (.line (-3) (-1) 3 2 0) := by decide +kernel
theorem test_decode_box : decode 0x540000A005002002 = .ok (.box 10 5 2 2 2) := by decide +kernel
theorem test_decode_filled_box : decode 0x6A0000200200A005 = .ok (.filledBox 2 2 10 5 5) := by decide +kernel
/-- Bit by bit: OPC 0111, MODE 011, V, AUX, A = 16, B = 8, C = -2048, D. -/
theorem test_decode_circle :
    decode 0b0111011000000000000000010000000000001000100000000000000000000000 = .ok (.circle 16 8 (-2048) 3) := by
  decide +kernel
theorem test_decode_glyph_compact : decode 0x8831001002000000 = .ok (.glyph 1 2 0x31 .compact 4) := by decide +kernel
theorem test_decode_glyph_tall : decode 0x8131001002000000 = .ok (.glyph 1 2 0x31 .tall 0) := by decide +kernel
theorem test_decode_test_pattern : decode 0x9003000000000000 = .ok (.testPattern 3) := by decide +kernel
/-- Bit by bit: OPC 1010 and nothing else. -/
theorem test_decode_scan_once :
    decode 0b1010000000000000000000000000000000000000000000000000000000000000 = .ok .scanOnce := by decide
theorem test_decode_fence : decode 0xB000000000000000 = .ok .fence := by decide

/-- Every row of R104 with one reserved field not 0, and the reserved opcodes. -/
theorem test_illegal_words : ([0x0000000000000001, 0x1101000000000000, 0x1100000000001000, 0x2A00000000000000,
    0x2100000000000000, 0x3200000000000000, 0x3100000000000000, 0x4100000000000000, 0x5001000000000000,
    0x7100010008005000, 0x7000000000000001, 0x8E00000000000001, 0x9104000000000000, 0xA000000000000001,
    0xB000001000000000] : List Word).all (fun w => decode w == .error .reservedField) = true ∧
    ([0xC000000000000000, 0xF000000000000000] : List Word).all (fun w => decode w == .error .reservedOpcode) = true := by
  decide +kernel

/-- 20_memory.md R76: eight bytes, most significant first; seven are no word. -/
theorem test_bytes : decodeBytes [0x15, 0x00, 0xFF, 0xF0, 0x00, 0x00, 0x00, 0x00, 0x7E] =
      .ok (.writePixel (-1) 0 2 true, [0x7E]) ∧
    decodeBytes [0x15, 0x00, 0xFF, 0xF0, 0x00, 0x00, 0x00] = .error .truncated := by decide +kernel

/-- The table word of the host's numbering is the word itself, cut at nbits. -/
theorem test_table_word : decodeTableWord 64 0xA000000000000000 = some .scanOnce ∧
    decodeTableWord 64 0xC000000000000000 = none := by decide +kernel

/-- The step after withFetchWord runs the word's instruction first. -/
theorem test_with_fetch_word :
    (nextOf (step (State.reset.withFetchWord 64 0x3012000000000000))).map (fun t => (t.slot, t.deOps.length)) =
      some (none, 64) := by decide +kernel

/-! ### The port: the table of 95_test_vectors.md section 2.1 -/

theorem test_refused_words : ([(0x0000000000000001, 0x0100), (0xA000000000000001, 0x0100), (0xC000000000000000, 0x0100),
    (0xF000000000000000, 0x0100), (0x1B00000000000000, 0x0200), (0x1B00000000000001, 0x0100),
    (0x2A00000000000000, 0x0100), (0x3200000000000000, 0x0100), (0x7100010008005000, 0x0100),
    (0x7E00010008005000, 0x0200), (0x6A0000200200A005, 0x0200), (0x9004000000000000, 0x0400),
    (0x9104000000000000, 0x0100), (0x8131001002000000, 0x0400), (0x8E00000000000001, 0x0100)] :
      List (Word × BitVec 16)).all (fun row =>
    ((portStep (slotted row.1)).bind nextOf).map (fun t => (status t, t.slot, t.deOps)) == some (row.2, none, [])) =
      true := by decide +kernel

theorem test_sticky : (((portStep (slotted 0x9004000000000000)).bind nextOf).bind fun t =>
    (portStep { t with slot := some 0x1B00000000000000 }).bind nextOf).map status = some 0x0600 := by decide +kernel

/-! ### The commands, one acceptance each -/

theorem test_nop : (nextOf (exec .nop (given .nop))).map observe = some (observe State.reset) := by decide +kernel
theorem test_write_pixel : (nextOf (exec (.writePixel 5 3 4 false) (given .nop))).map (·.deOps) =
    some [.pixop 5 3 .nor false] := by decide
theorem test_write_pixel_waits : nextOf (exec (.writePixel 5 3 0 true) (drawing [.rdpix 0 0])) =
    some (drawing [.rdpix 0 0]) := by decide +kernel
theorem test_read_pixel : (nextOf (exec (.readPixel (-1) 16) (given .nop))).map (·.deOps) = some [.rdpix (-1) 16] := by
  decide
theorem test_clear : (nextOf (exec (.clear 0xA5) (given .nop))).map (fun t => (t.deOps.length, t.deOps[63]?)) =
    some (64, some (.fill 63 0xA5)) := by decide +kernel
/-- 95_test_vectors.md section 2.5: a slope of one half goes different ways in its two directions. -/
theorem test_line : linePixels 0 0 4 2 = [(0, 0), (1, 1), (2, 1), (3, 2), (4, 2)] ∧
    linePixels 4 2 0 0 = [(4, 2), (3, 1), (2, 1), (1, 0), (0, 0)] := by decide +kernel
theorem test_line_steep : linePixels 5 5 2 (-2) =
    [(5, 5), (5, 4), (4, 3), (4, 2), (3, 1), (3, 0), (2, -1), (2, -2)] := by decide +kernel
/-- 95_test_vectors.md section 2.6: a box of zero width. -/
theorem test_box : (boxPixels 4 3 4 1).count (4, 1) = 3 ∧ (boxPixels 4 3 4 1).count (4, 2) = 2 ∧
    (boxPixels 2 2 10 5).length = 26 := by decide +kernel
theorem test_filled_box : filledBoxPixels 3 5 2 4 = [(2, 4), (3, 4), (2, 5), (3, 5)] := by decide +kernel
/-- 95_test_vectors.md section 2.8: r = 2. -/
theorem test_circle : circlePixels 0 0 2 = [(0, 2), (0, -2), (2, 0), (-2, 0), (1, 2), (-1, 2), (1, -2), (-1, -2),
    (2, 1), (-2, 1), (2, -1), (-2, -1)] := by decide +kernel
theorem test_circle_degenerate : (nextOf (exec (.circle 16 8 (-1) 0) (given .nop))).map deBusy = some false ∧
    (circlePixels 16 8 5).length = 28 := by decide +kernel
/-- 95_test_vectors.md section 2.9: 15 PIXOPs, the second row's second pixel set. -/
theorem test_glyph : (nextOf (exec (.glyph 1 2 0x31 .compact 0) (given .nop))).map
    (fun t => (t.deOps.length, t.deOps[4]?, t.deOps[5]?)) =
      some (15, some (.pixop 2 3 .normal true), some (.pixop 3 3 .normal false)) := by decide +kernel
theorem test_glyph_absent : (nextOf (exec (.glyph 0 0 0x7F .compact 0) (given .nop))).map status = some 0x0400 := by
  decide +kernel
theorem test_pattern : (nextOf (exec (.testPattern 1) (given .nop))).map
    (fun t => (t.deOps.length, t.deOps[1]?, t.deOps[32]?)) =
      some (512, some (.pixop 1 0 .normal true), some (.pixop 0 1 .normal true)) := by decide +kernel
theorem test_scan_once : (nextOf (exec .scanOnce (given .nop))).map (fun t => (t.se, status t)) =
    some (.sample, 0x0040) := by decide +kernel
theorem test_fence_waits : nextOf (exec .fence (drawing [.rdpix 0 0])) = some (drawing [.rdpix 0 0]) := by
  decide +kernel

/-! ### The micro-operations, the scan and the host, one step each -/

/-- 95_test_vectors.md section 2.2. -/
theorem test_addressing : ([((0, 0), 0, 0x80), ((7, 0), 0, 0x01), ((8, 0), 1, 0x80), ((31, 0), 3, 0x01),
    ((0, 1), 4, 0x80), ((5, 3), 12, 0x04), ((13, 9), 37, 0x04), ((16, 8), 34, 0x80), ((31, 15), 63, 0x01)] :
      List ((Int × Int) × Nat × Byte)).all (fun r => Config.reference.offset r.1.1 r.1.2 == r.2.1 &&
        pixelMask r.1.1 == r.2.2 && Config.reference.inRange r.1.1 r.1.2) = true ∧
    ([(-1, 0), (32, 0), (0, 16), (0, -1)] : List (Int × Int)).all
      (fun p => !Config.reference.inRange p.1 p.2) = true := by decide

/-- 95_test_vectors.md section 2.3: each mode on FB[0] = 0xA5, with v = 0 and 1, at x = 0 and x = 1. -/
theorem test_blend_through_pixop : ([(.normal, 0x25, 0xA5, 0xA5, 0xE5), (.inverse, 0x25, 0xA5, 0xA5, 0xE5),
    (.toggle, 0xA5, 0xA5, 0x25, 0xE5), (.or, 0xA5, 0xA5, 0xA5, 0xE5), (.nor, 0x25, 0xE5, 0x25, 0xA5)] :
      List (Mode × Byte × Byte × Byte × Byte)).all (fun r =>
    [(pixopFb a5.cfg a5.fb 0 0 r.1 false).read 0, (pixopFb a5.cfg a5.fb 1 0 r.1 false).read 0,
      (pixopFb a5.cfg a5.fb 0 0 r.1 true).read 0, (pixopFb a5.cfg a5.fb 1 0 r.1 true).read 0] ==
      [r.2.1, r.2.2.1, r.2.2.2.1, r.2.2.2.2]) = true := by decide +kernel

theorem test_rdpix : (nextOf (perform (.rdpix 0 0) a5)).map status = some 0x0003 ∧
    (nextOf (perform (.rdpix 32 0) { a5 with pix := true, rdv := true })).map status = some 0x0000 := by decide +kernel
theorem test_fill_removes_zero : (nextOf (perform (.fill 0 0x00) a5)).map (·.fb) = some [] := by decide +kernel
theorem test_scan_shift : (nextOf (seTransfer 0 (.shift 0) a5)).map (fun t => (t.events, t.se)) =
    some ([.shift 0xA5], .transfer 0 (.shift 1)) := by decide +kernel
theorem test_scan_advance_wraps : (nextOf (seTransfer 3 .advance State.reset)).map (·.cursor) = some 0 := by
  decide +kernel
theorem test_scan_skips : (nextOf (step { State.reset with se := .sample, busDraws := [true] })).map
    (fun t => (status t, t.events)) = some (0x0010, []) := by decide +kernel
/-- 95_test_vectors.md section 2.11: the slices of a 16 × 8 panel. -/
theorem test_slices : [defaultSliceOrder 16 8 0, defaultSliceOrder 16 8 1, defaultSliceOrder 16 8 2,
    defaultSliceOrder 16 8 3] = [[0, 1, 8, 9], [2, 3, 10, 11], [4, 5, 12, 13], [6, 7, 14, 15]] := by decide +kernel
/-- 70_reset_and_hazards.md R280 and 95_test_vectors.md section 2.13: with SCAN_START = 2, STATUS is 0x0008. -/
theorem test_reset : status (State.resetOf { Config.reference with scanStart := 2 }) = 0x0008 ∧
    (hostStep { a5 with rowOe := true, fIllcmd := true, host := [.reset] }).map observe =
      some (observe State.reset) := by decide +kernel
theorem test_wait_idle : (hostStep { drawing [.rdpix 0 0] with host := [.waitIdle] }).isNone = true ∧
    (hostStep { State.reset with host := [.waitIdle] }).isSome = true := by decide +kernel
/-- 70_reset_and_hazards.md R291: a word to write, and nothing else of the host's moves, keeps the run going. -/
theorem test_quiescent : quiescent (hosted [.readStatus, .waitIdle, .reset]) = true ∧
    quiescent (hosted [.readStatus, .write 0]) = false ∧ quiescent (slotted 0) = false ∧
    quiescent (drawing [.rdpix 0 0]) = false ∧ quiescent (scanning .blank false) = false := by decide
theorem test_reset_memory_canonical : State.reset.fb.wf := by decide

/-- 30_encoding.md R113, R114: comments, pseudo-instructions, a raw word, and what an assembler refuses. -/
theorem test_assembler : assembleLine "SETPIX -1, 0x1F ; lit".toList = .ok (some (.command (.writePixel (-1) 31 0 true))) ∧
    assembleLine ".word 0xC000000000000000".toList = .ok (some (.raw 0xC000000000000000)) ∧
    assembleLine "WAITIDLE".toList = .ok (some .waitIdle) ∧ assembleLine "; nothing".toList = .ok none ∧
    assembleLine "LINE 0, 0, 2048, 0, NORMAL".toList = .error .badOperands ∧
    assembleLine "CLEAR 256".toList = .error .badOperands ∧
    assembleLine "LINE 0, 0, 1, 0, 5".toList = .error .badOperands := by decide +kernel

/-! ### Witnesses: for each obligation with hypotheses, a case that meets them all together, clause by clause -/

theorem test_witness_DecodingAnEncodedCommandGivesItBack : (Instr.line (-2048) 2047 (-1) 0 7).wf = true := by decide

theorem test_witness_EncodingADecodedWordGivesItBack : decode 0x400000000001F00F = .ok (.line 0 0 31 15 0) := by
  decide +kernel

theorem test_witness_AWordSelectsTheRowItsMaskMatches :
    (0x1100005003000000 : Word) &&& 0xF0FF000000FFFFFF = 0x1 <<< 60 := by decide

theorem test_witness_AByteWideLinkSendsTheMostSignificantByteFirst : ([1, 2, 3, 4, 5, 6, 7] : List Byte).length < 8 := by
  decide

theorem test_witness_WhatTheAssemblerYieldsIsEncodableAndLegal :
    assembleLine "CIRCLE 2047, -2048, 0, 4".toList = .ok (some (.command (.circle 2047 (-2048) 0 4))) ∧
    assembleLine "GLYPH 0, 0, 255, TALL, OR".toList = .ok (some (.command (.glyph 0 0 255 .tall 3))) ∧
    verdict Config.reference (encode (.glyph 0 0 255 .tall 3)) = .fault .illarg := by decide +kernel

theorem test_witness_ResetReplacesTheWholeState : (hosted [.reset]).host = .reset :: [] := rfl

theorem test_witness_TheHostReadsStatusAndWritesTheEmptySlot : (hosted [.readStatus]).host = .readStatus :: [] ∧
    ((hosted [.write 0]).host = .write 0 :: [] ∧ (hosted [.write 0]).slot = none) ∧
    ({ hosted [.write 0] with slot := some 0 } : State).slot ≠ none := by decide

theorem test_witness_ThePortFollowsTheVerdict :
    [0xC000000000000000, 0x0000000000000000, 0xB000000000000000, 0xA000000000000000, 0x3000000000000000].map
      (verdict Config.reference) =
    [.fault .illcmd, .execute .nop, .execute .fence, .execute .scanOnce, .execute .clear] ∧
    (slotted 0xC000000000000000).slot = some 0xC000000000000000 := by decide +kernel

theorem test_witness_NopIsAlwaysAcceptedAndFenceWaitsForBothEngines :
    (State.reset.deOps = [] ∧ State.reset.se = .idle) ∧ (drawing [.rdpix 0 0]).deOps ≠ [] ∧
    (scanning .blank false).se ≠ .idle := by decide

theorem test_witness_ScanOnceStartsTheIdleScanEngine : State.reset.se = .idle ∧ (scanning .blank false).se ≠ .idle := by
  decide

theorem test_witness_PixelCommandsStartTheirLists :
    State.reset.deOps = [] ∧ Mode.ofField 0 = some .normal ∧ Mode.ofField 4 = some .nor := by decide

theorem test_witness_LineAndBoxCommandsStartTheirLists : State.reset.deOps = [] ∧ Mode.ofField 4 = some .nor := by decide

theorem test_witness_CircleStartsItsList :
    State.reset.deOps = [] ∧ Mode.ofField 2 = some .toggle ∧ (-1 : Int) < 0 ∧ (0 : Int) = 0 ∧ (0 : Int) < 1 := by decide

theorem test_witness_GlyphStartsItsList : State.reset.deOps = [] ∧ Mode.ofField 1 = some .inverse ∧
    State.reset.cfg.glyph .compact 0x31 = some [[false, true, false], [true, true, false], [false, true, false],
      [false, true, false], [true, true, true]] := by decide +kernel

theorem test_witness_TestPatternStartsItsList : State.reset.deOps = [] := rfl

theorem test_witness_IllegalOperandsAreRefused : 5 ≤ (5 : BitVec 3).toNat ∧ 3 < (4 : Byte).toNat ∧
    (4 : BitVec 3).toNat < 5 ∧ State.reset.cfg.glyph .tall 0x31 = none := by decide

theorem test_witness_ADrawingCommandWaitsForTheDrawingEngine :
    (Instr.glyph 0 0 0x31 .compact 4).wf = true ∧ (drawing [.rdpix 0 0]).deOps ≠ [] ∧
    (Instr.glyph 0 0 0x31 .compact 4).op.isDrawing = true ∧
    verdict (drawing [.rdpix 0 0]).cfg (encode (.glyph 0 0 0x31 .compact 4)) =
      .execute (Instr.glyph 0 0 0x31 .compact 4).op := by decide +kernel

theorem test_witness_DistinctPixelsAreDistinctBits : Config.reference.wf ∧ Config.reference.inRange 0 0 = true ∧
    Config.reference.inRange 31 15 = true ∧ Config.reference.offset 31 15 = Config.reference.offset 31 15 := by
  decide +kernel

theorem test_witness_PixopChangesAtMostOneBit : a5.Inv ∧ a5.cfg.inRange 32 15 = false ∧ 1 ≠ a5.cfg.offset 0 0 ∧
    a5.cfg.inRange 31 15 = true := ⟨a5_inv, by decide, by decide, by decide⟩

theorem test_witness_RdpixReportsThePixel : a5.cfg.inRange 31 15 = true ∧ a5.cfg.inRange (-1) 0 = false := by decide

theorem test_witness_FillWritesOneByte : a5.fb.wf ∧ 63 < a5.cfg.fbBytes ∧ a5.cfg.fbBytes ≤ 64 := by decide

theorem test_witness_RepeatedPixopsFollowTheirLaws : Config.reference.wf ∧ a5.fb.wf ∧
    Config.reference.inRange 0 0 = true ∧ pixelBit Config.reference a5.fb 0 0 = true ∧
    pixelBit Config.reference (pixopFb Config.reference a5.fb 1 0 .nor false) 1 0 = true := by decide +kernel

theorem test_witness_PixopsCommute : Config.reference.wf ∧ a5.fb.wf ∧ Config.reference.inRange 7 0 = true ∧
    Config.reference.inRange 8 0 = true ∧ ¬((8 : Int) = 7 ∧ (0 : Int) = 0) := by decide +kernel

theorem test_witness_LinesAreConnectedAndPlotNoPixelTwice :
    (linePixels 0 0 2 4)[3]? = some (2, 3) ∧ (linePixels 0 0 2 4)[3 + 1]? = some (2, 4) := by decide +kernel

theorem test_witness_LinePixelsAreRoundedToTheNearest :
    (((1 : Int) - 0).natAbs < ((6 : Int) - 0).natAbs ∧ 6 ≤ ((6 : Int) - 0).natAbs) ∧
    (((0 : Int) - 0).natAbs ≤ ((0 : Int) - 0).natAbs ∧ 0 ≤ ((0 : Int) - 0).natAbs) := by decide

theorem test_witness_CirclesPlotThePixelsNearestToTheCircle : (0 : Int) < 1 := by decide

theorem test_witness_CirclesAreSymmetricAndPlotNoPixelTwice :
    ((16 + 3 : Int), (8 + 4 : Int)) ∈ circlePixels 16 8 5 := by decide +kernel

theorem test_witness_EveryDrawingTakesItsNumberOfSteps : (4 : BitVec 3).toNat < 5 ∧ (-1 : Int) < 0 ∧
    Config.reference.glyph .compact 0x31 ≠ none ∧ (3 : Byte).toNat < 4 := by decide +kernel

/-- The hypotheses of the statements that run a drawing from a quiet state. -/
theorem drawing_hypotheses {i : Instr} (hi : i.wf = true) (hd : i.op.isDrawing = true)
    (hv : verdict Config.reference (encode i) = .execute i.op) :
    (given i).Inv ∧ quiet (given i) ∧ i.wf = true ∧ i.op.isDrawing = true ∧ (given i).slot = some (encode i) ∧
      verdict (given i).cfg (encode i) = .execute i.op :=
  ⟨slotted_inv _, slotted_quiet _, hi, hd, rfl, hv⟩

theorem test_witness_ADrawingCommandRunsToItsEnd : (given (.readPixel 31 15)).Inv ∧ quiet (given (.readPixel 31 15)) ∧
    (Instr.readPixel 31 15).wf = true ∧ (Instr.readPixel 31 15).op.isDrawing = true ∧
    (given (.readPixel 31 15)).slot = some (encode (.readPixel 31 15)) ∧
    verdict (given (.readPixel 31 15)).cfg (encode (.readPixel 31 15)) = .execute .readPixel :=
  drawing_hypotheses (by decide) rfl (by decide +kernel)

theorem test_witness_ADrawingCommandRunsToItsEnd_not_a_read : (given (.clear 1)).Inv ∧ quiet (given (.clear 1)) ∧
    (∀ x y, (Instr.clear 1) ≠ .readPixel x y) ∧
    verdict (given (.clear 1)).cfg (encode (.clear 1)) = .execute .clear :=
  ⟨slotted_inv _, slotted_quiet _, by simp, by decide +kernel⟩

theorem test_witness_WritePixelBlendsItsPixel : (given (.writePixel 31 15 4 true)).Inv ∧
    quiet (given (.writePixel 31 15 4 true)) ∧ coordOk 31 = true ∧ coordOk 15 = true ∧ Mode.ofField 4 = some .nor ∧
    (given (.writePixel 31 15 4 true)).cfg.inRange 31 15 = true :=
  ⟨slotted_inv _, slotted_quiet _, by decide⟩

theorem test_witness_ReadPixelLeavesItsResultInStatus : (given (.readPixel (-2048) 2047)).Inv ∧
    quiet (given (.readPixel (-2048) 2047)) ∧ coordOk (-2048) = true ∧ coordOk 2047 = true :=
  ⟨slotted_inv _, slotted_quiet _, by decide⟩

theorem test_witness_AReadResultStandsOnceTheDrawingEngineIsIdle :
    let s := { drawing [.rdpix 0 0] with host := [.readStatus] }
    (s.deOps = [.rdpix 0 0] ∧ s.slot = none ∧ ∀ move ∈ s.host, move = .readStatus ∨ move = .waitIdle) ∧
    ∃ t, runsTo 1 s t ∧ (status t).getLsbD 5 = false :=
  ⟨by decide, _, rfl, by decide +kernel⟩

theorem test_witness_ClearFillsTheWholeFramebuffer : (given (.clear 0xFF)).Inv ∧ quiet (given (.clear 0xFF)) ∧
    (given (.clear 0xFF)).slot = some (encode (.clear 0xFF)) ∧ 63 < (given (.clear 0xFF)).cfg.fbBytes :=
  ⟨slotted_inv _, slotted_quiet _, rfl, by decide⟩

theorem test_witness_FiguresBlendEachOfTheirPixelsOnce : ∀ i ∈ ([.line (-3) (-1) 3 2 2, .filledBox 30 14 40 20 2,
    .circle 16 8 5 2] : List Instr), (given i).Inv ∧ quiet (given i) ∧ i.wf = true ∧
      (given i).slot = some (encode i) ∧ Mode.ofField 2 = some .toggle ∧ (given i).cfg.inRange 31 15 = true := by
  intro i hi
  refine ⟨slotted_inv _, slotted_quiet _, ?_, rfl, rfl, by decide +revert⟩
  revert i; decide

theorem test_witness_BoxBlendsEachPixelAsOftenAsItsLinesPlotIt : (given (.box 10 5 2 2 2)).Inv ∧
    quiet (given (.box 10 5 2 2 2)) ∧ (Instr.box 10 5 2 2 2).wf = true ∧
    (given (.box 10 5 2 2 2)).slot = some (encode (.box 10 5 2 2 2)) ∧ Mode.ofField 2 = some .toggle ∧
    (given (.box 10 5 2 2 2)).cfg.inRange 2 2 = true :=
  ⟨slotted_inv _, slotted_quiet _, by decide, rfl, rfl, by decide⟩

theorem test_witness_GlyphBlendsItsWholeCell : (given (.glyph 30 14 0x31 .compact 0)).Inv ∧
    quiet (given (.glyph 30 14 0x31 .compact 0)) ∧ (Instr.glyph 30 14 0x31 .compact 0).wf = true ∧
    Mode.ofField 0 = some .normal ∧ (Config.reference.glyph .compact 0x31).isSome = true ∧
    Config.reference.inRange (30 + ((1 : Nat) : Int)) (14 + ((1 : Nat) : Int)) = true ∧
    (Config.reference.inRange 29 15 = true ∧ ¬((30 : Int) ≤ 29)) :=
  ⟨slotted_inv _, slotted_quiet _, by decide +kernel⟩

theorem test_witness_TestPatternOverwritesThePanel : (given (.testPattern 3)).Inv ∧ quiet (given (.testPattern 3)) ∧
    (given (.testPattern 3)).slot = some (encode (.testPattern 3)) ∧ Pattern.ofId 3 = some .stripe1 ∧
    31 < (given (.testPattern 3)).cfg.width ∧ 15 < (given (.testPattern 3)).cfg.height :=
  ⟨slotted_inv _, slotted_quiet _, rfl, by decide⟩

theorem test_witness_AScanTransfersTheSliceAtTheCursor :
    let s := { given .scanOnce with busDraws := [false], cursor := 3 }
    s.Inv ∧ quiet s ∧ s.slot = some (encode .scanOnce) ∧ (drawBus s).1 = false :=
  ⟨idle_inv rfl ⟨.nil, nofun⟩ nofun rfl rfl, ⟨rfl, rfl, rfl⟩, rfl, rfl⟩

theorem test_witness_AClaimedBusSkipsTheScan :
    let s := { given .scanOnce with busDraws := [true] }
    quiet s ∧ s.slot = some (encode .scanOnce) ∧ (drawBus s).1 = true := ⟨⟨rfl, rfl, rfl⟩, rfl, rfl⟩

theorem test_witness_TheScanEngineNeverWritesTheFramebuffer :
    (∃ t, agentStep .se (scanning (.shift 15) false) = some (.next t)) ∧
    (∃ t, agentStep .se (scanning .latch false) = some (.next t)) ∧
    ∀ sl k, (scanning .latch false).se ≠ .transfer sl (.shift k) := ⟨⟨_, rfl⟩, ⟨_, rfl⟩, by simp [scanning]⟩

theorem test_witness_TheSlicesPartitionTheFramebuffer : Config.reference.wf := reference_wf

/-- A step that changes CURSOR, ROW_OE both ways, ROW_SEL, SKIP or the history, and a RESET. -/
theorem test_witness_ScanStateIsWrittenOnlyInItsPhase :
    ((nextOf (step (scanning .advance true))).map (·.cursor) = some 1) ∧
    ((nextOf (step (scanning .blank true))).map (·.rowOe) = some false) ∧
    ((nextOf (step (scanning .enable false))).map (·.rowOe) = some true) ∧
    ((nextOf (step { scanning .select false with rowSel := 2 })).map (·.rowSel) = some 0) ∧
    ((nextOf (step { State.reset with se := .sample, skip := true, busDraws := [false] })).map (·.skip) = some false) ∧
    ((nextOf (step (scanning .latch false))).map (·.events) = some [.latch]) ∧
    ((nextOf (step { hosted [.reset] with cursor := 2 })).map (·.cursor) = some 0) := by decide +kernel

theorem test_witness_TheHistoryIsConsecutiveWholeTransfers :
    State.reset.Inv ∧ State.reset.HistoryOk ∧ ∃ t, step { State.reset with schedule := [.se] } = .next t :=
  ⟨reset_inv, ⟨[], [], by simp, rfl, rfl, rfl⟩, _, rfl⟩

theorem test_witness_AStepRunsTheDecodedCommand :
    ((drawTurn (given .nop)).1 = .port ∧ (given .nop).slot = some 0 ∧ decode 0 = .ok .nop ∧
      ∃ t, exec .nop (drawTurn (given .nop)).2 = .next t ∧ t.slot = none) ∧
    ((drawTurn (slotted 1)).1 = .port ∧ (slotted 1).slot = some 1 ∧ decode 1 = .error .reservedField) ∧
    (decodeTableWord 64 0 = some .nop ∧
      ∃ t, exec .nop { State.reset with slot := some (tableWord 64 0) } = .next t ∧ t.slot = none) :=
  ⟨⟨rfl, by decide +kernel, by decide, _, rfl, rfl⟩, ⟨rfl, rfl, by decide⟩, by decide, _, rfl, rfl⟩

theorem test_witness_EveryInterleavingOfAgentStepsIsARun : ∃ r, agentStep .de { drawing [.rdpix 0 0] with
    schedule := [] } = some r := ⟨_, rfl⟩

theorem test_witness_NothingIsEverStuck : ∀ a, agentStep a State.reset = none := by
  intro a; cases a <;> rfl

theorem test_witness_EveryStepKeepsTheInvariant : (given (.clear 0xFF)).Inv := slotted_inv _

theorem test_witness_ResetMeetsTheInvariant : Config.reference.wf := reference_wf

theorem test_witness_EveryRunEnds : (given (.clear 0xFF)).Inv := slotted_inv _

/-- A step of the DE that changes FB, one that changes PIX, one of the port that gives the DE a list, and a RESET. -/
theorem test_witness_DrawingStateIsWrittenOnlyByTheDrawingEngine :
    ((nextOf (step (drawing [.fill 0 1]))).map (·.fb) = some [(0, 1)]) ∧
    ((nextOf (step { drawing [.rdpix 0 0] with pix := true })).map (·.pix) = some false) ∧
    ((nextOf (step (given (.readPixel 0 0)))).map (·.deOps) = some [.rdpix 0 0]) ∧
    ((nextOf (step { a5 with host := [.reset], schedule := [.host] })).map (·.fb) = some []) := by decide +kernel

/-- A run that keeps a flag, and a step that sets one. -/
theorem test_witness_FaultFlagsAreSticky :
    (HostMove.reset ∉ (hosted [.readStatus]).host ∧
      ∃ t, runsTo 1 { hosted [.readStatus] with fIllarg := true } t) ∧
    (∃ t, step (slotted 0xC000000000000000) = .next t ∧ flag .illcmd (slotted 0xC000000000000000) = false ∧
      flag .illcmd t = true) := ⟨⟨by decide, _, rfl⟩, _, rfl, rfl, rfl⟩

/-- One DE step of a run, after which the SE shifts the first byte. -/
theorem test_witness_AScanSeesOnlyPrefixesOfADrawing :
    let s := { drawing [.fill 0 0x80, .fill 0 0xC0] with se := .transfer 0 (.shift 0) }
    (s.slot = none ∧ ∀ move ∈ s.host, move = .readStatus ∨ move = .waitIdle) ∧
    ∃ t u, runsTo 1 s t ∧ t.se = .transfer 0 (.shift 0) ∧ agentStep .se t = some (.next u) ∧
      u.events = [.shift 0x80] := ⟨by decide, _, _, rfl, rfl, rfl, by decide +kernel⟩

theorem test_witness_TheObservationAtARunsEndIsFinal :
    (quiescent (hosted [.readStatus]) = true ∧ HostMove.reset ∉ (hosted [.readStatus]).host) ∧
    ∃ t, runsTo 1 (hosted [.readStatus]) t := ⟨by decide, _, rfl⟩

end Sys2Proof.Tests
end

/-! SUPPORT. An encodable command is what its word decodes to (30_encoding.md R113), and what a verdict of Execute
says. -/

namespace Sys2Proof

theorem Geometry.ofBit_toBit (g : Geometry) : Geometry.ofBit g.toBit = g := by cases g <;> rfl

theorem opcField_encode (i : Instr) : opcField (encode i) = i.op.code := by
  cases i <;> exact opcField_pack ..

/-- Every reserved field of an encoded command is 0 (30_encoding.md R104). -/
theorem encode_and_mask (i : Instr) : encode i &&& i.op.format.mask = (i.op.code.setWidth 64) <<< 60 := by
  rw [code_shift_eq_joinFields]
  cases i <;> simp [encode, Instr.op, Op.format, pack_eq_joinFields, mask_n, mask_p, mask_r, mask_f, mask_l, mask_ci,
    mask_g, mask_t, joinFields_and, Op.code]

/-- Each operand of an encodable command is read back from its field (30_encoding.md R113). -/
theorem build_encode {i : Instr} (h : i.wf = true) : i.op.build (encode i) = i := by
  cases i with
  | nop | scanOnce | fence => rfl
  | clear fill => simp [encode, Instr.op, Op.build, auxField_pack]
  | testPattern id => simp [encode, Instr.op, Op.build, auxField_pack]
  | glyph x y code g mode =>
    simp only [Instr.wf, Bool.and_eq_true] at h
    simp [encode, Instr.op, Op.build, aField_pack, bField_pack, auxField_pack, vField_pack, modeField_pack, h,
      Geometry.ofBit_toBit]
  | writePixel | readPixel | line | box | filledBox | circle =>
    simp only [Instr.wf, Bool.and_eq_true] at h
    simp [encode, Instr.op, Op.build, aField_pack, bField_pack, cField_pack, dField_pack, vField_pack, modeField_pack, h]

theorem decode_encode {i : Instr} (h : i.wf = true) : decode (encode i) = .ok i :=
  decode_eq_ok.mpr ⟨i.op, opcField_encode i, encode_and_mask i, (build_encode h).symm⟩

open Machine in
/-- What the six checks of 30_encoding.md R110 have let pass where the verdict is Execute. -/
theorem verdict_execute {c : Config} {w : Word} {op : Op} (h : verdict c w = .execute op) :
    Op.ofCode (opcField w) = some op ∧ w &&& op.reserved = 0 ∧ (op.takesMode = true → (modeField w).toNat < 5) ∧
      (op = .testPattern → (auxField w).toNat ≤ 3) ∧
      (op = .glyph → c.glyph (Geometry.ofBit (vField w)) (auxField w) ≠ none) := by
  unfold verdict at h
  split at h
  · cases h
  · next op' hop =>
    split_ifs at h with h2 h3 h4 h5
    cases h
    exact ⟨hop, not_not.mp h2, fun hm => not_le.mp fun hle => h3 ⟨hm, hle⟩,
      fun ht => not_lt.mp fun hlt => h4 ⟨ht, hlt⟩, fun hg hn => h5 ⟨hg, hn⟩⟩

theorem Mode.exists_ofField {m : BitVec 3} (h : m.toNat < 5) : ∃ mode, Mode.ofField m = some mode := by
  have key : ∀ m : BitVec 3, m.toNat < 5 → (Mode.ofField m).isSome = true := by decide
  exact Option.isSome_iff_exists.mp (key m h)

theorem Pattern.exists_ofId {id : Byte} (h : id.toNat ≤ 3) : ∃ p, Pattern.ofId id = some p := by
  have key : ∀ id : Byte, id.toNat ≤ 3 → (Pattern.ofId id).isSome = true := by decide
  exact Option.isSome_iff_exists.mp (key id h)

end Sys2Proof

/-! SUPPORT. The port's treatment of a command: it always answers, its frame, and a legal DE command starts the DE. -/

namespace Sys2Proof.Machine

/-- The fields that an acceptance can change, and how (30_encoding.md R111, 60_exceptions.md R240). -/
theorem Accepts.frame {i : Instr} {s t : State} (h : Accepts i s t) :
    t = { s with slot := t.slot, hostIndex := t.hostIndex, deOps := t.deOps, se := t.se, fIllmode := t.fIllmode,
                 fIllarg := t.fIllarg } := by
  cases h with
  | raises f hf =>
    cases f with
    | illcmd => exact absurd rfl hf
    | illmode | illarg => rfl
  | waits | nop | fence | draws | scans => rfl

theorem Accepts.consumed {i : Instr} {s t : State} (h : Accepts i s t) :
    t = s ∨ t.slot = none ∧ t.hostIndex = s.hostIndex + 1 := by
  cases h with
  | waits => exact .inl rfl
  | raises | nop | fence | draws | scans => simp

theorem Accepts.deOps_changed {i : Instr} {s t : State} (h : Accepts i s t) (hne : t.deOps ≠ s.deOps) :
    i.op.isDrawing = true ∧ s.deOps = [] := by
  cases h with
  | draws hi hde => exact ⟨hi, hde⟩
  | waits | raises | nop | fence | scans => simp at hne

theorem Accepts.se_changed {i : Instr} {s t : State} (h : Accepts i s t) (hne : t.se ≠ s.se) :
    i = .scanOnce ∧ s.se = .idle := by
  cases h with
  | scans hi hse => exact ⟨hi, hse⟩
  | waits | raises | nop | fence | draws => simp at hne

theorem Accepts.flag_kept {i : Instr} {s t : State} (h : Accepts i s t) {f : FaultFlag} (hf : flag f s = true) :
    flag f t = true := by
  cases h with
  | raises => simp [hf]
  | waits | nop | fence | draws | scans => exact hf

theorem startDrawing_answers (ops : List MicroOp) (s : State) : ∃ t, startDrawing ops s = .next t := by
  unfold startDrawing; split <;> exact ⟨_, rfl⟩

theorem startDrawingIn_answers (field : BitVec 3) (ops : Mode → List MicroOp) (s : State) :
    ∃ t, startDrawingIn field ops s = .next t := by
  unfold startDrawingIn; split
  · exact ⟨_, rfl⟩
  · exact startDrawing_answers ..

/-- No command's meaning stops the machine (60_exceptions.md R240). -/
theorem exec_answers (i : Instr) (s : State) : ∃ t, exec i s = .next t := by
  cases i with
  | nop => exact ⟨_, rfl⟩
  | readPixel | clear => exact startDrawing_answers ..
  | writePixel | line | box | filledBox | circle => exact startDrawingIn_answers ..
  | glyph x y code g mode =>
    dsimp only [exec, execGlyph]
    split
    · exact ⟨_, rfl⟩
    · exact ⟨_, rfl⟩
    · exact startDrawing_answers ..
  | testPattern id =>
    dsimp only [exec, execTestPattern]
    split
    · exact ⟨_, rfl⟩
    · exact startDrawing_answers ..
  | scanOnce => dsimp only [exec, execScanOnce]; split <;> exact ⟨_, rfl⟩
  | fence => dsimp only [exec, execFence]; split <;> exact ⟨_, rfl⟩

theorem startDrawing_of_idle {s : State} (h : s.deOps = []) (ops : List MicroOp) :
    startDrawing ops s = .next { accept s with deOps := ops } := by
  simp [startDrawing, (deBusy_eq_false s).mpr h]

theorem startDrawingIn_of_mode {field : BitVec 3} {mode : Mode} (h : Mode.ofField field = some mode)
    (ops : Mode → List MicroOp) (s : State) : startDrawingIn field ops s = startDrawing (ops mode) s := by
  simp only [startDrawingIn, h]

/-- A DE command whose verdict is Execute asks the DE for its micro-operations, whatever the state: no check of
30_encoding.md R110 refuses it. -/
theorem exec_eq_startDrawing {s : State} {i : Instr} (hd : i.op.isDrawing = true)
    (hv : verdict s.cfg (encode i) = .execute i.op) : exec i s = startDrawing (i.microOps s.cfg) s := by
  obtain ⟨-, -, hmode, hid, hcode⟩ := verdict_execute hv
  have drawsIn : ∀ {field : BitVec 3} (ops : Mode → List MicroOp), field.toNat < 5 →
      startDrawingIn field ops s = startDrawing (((Mode.ofField field).map ops).getD []) s := by
    intro field ops hlt
    obtain ⟨m, hm⟩ := Mode.exists_ofField hlt
    rw [startDrawingIn_of_mode hm, hm]; rfl
  cases i with
  | nop | scanOnce | fence => cases hd
  | readPixel x y => rfl
  | clear b => rfl
  | writePixel | line | box | filledBox | circle => exact drawsIn _ (by simpa [encode, modeField_pack] using hmode rfl)
  | glyph x y code g mode =>
    obtain ⟨m, hm⟩ := Mode.exists_ofField (m := mode) (by simpa [encode, modeField_pack] using hmode rfl)
    obtain ⟨bm, hbm⟩ := Option.ne_none_iff_exists'.mp (hcode rfl)
    simp only [encode, vField_pack, auxField_pack, Geometry.ofBit_toBit] at hbm
    simp only [exec, execGlyph, Instr.microOps, hm, hbm]
  | testPattern id =>
    obtain ⟨p, hp⟩ := Pattern.exists_ofId (id := id) (by simpa [encode, auxField_pack] using hid rfl)
    simp only [exec, execTestPattern, Instr.microOps, hp, Option.map, Option.getD]

/-- Where the DE is idle such a command is accepted, and the DE becomes busy with its micro-operations
(30_encoding.md R111). -/
theorem portStep_of_legal_drawing {s : State} {i : Instr} (hi : i.wf = true) (hd : i.op.isDrawing = true)
    (hs : s.slot = some (encode i)) (hv : verdict s.cfg (encode i) = .execute i.op) (hidle : s.deOps = []) :
    portStep s = some (.next { accept s with deOps := i.microOps s.cfg }) := by
  have hx := (exec_eq_startDrawing hd hv).trans (startDrawing_of_idle hidle _)
  simp [portStep, hs, decode_encode hi, hx]

end Sys2Proof.Machine

/-! SUPPORT. Which micro-operations a command has, all of them on bytes that exist (20_memory.md R70). -/

namespace Sys2Proof.Machine

theorem mem_getD_map {α : Type} {o : Option α} {f : α → List MicroOp} {op : MicroOp} (h : op ∈ (o.map f).getD []) :
    ∃ a, op ∈ f a := by
  cases o with
  | none => cases h
  | some a => exact ⟨a, h⟩

/-- A command's micro-operations: FILLs of bytes that exist for CLEAR, one RDPIX for READ_PIXEL, else PIXOPs
(40_pixel.md R138 to R140, 41_primitives.md R160). -/
theorem mem_microOps {c : Config} {i : Instr} {op : MicroOp} (h : op ∈ i.microOps c) :
    (∃ x y mode v, op = .pixop x y mode v) ∨ (∃ k b, op = .fill k b ∧ k < c.fbBytes) ∨
      ∃ x y, i = .readPixel x y ∧ op = .rdpix x y := by
  have pixels : ∀ {field : BitVec 3} {ps : List (Int × Int)}, op ∈ ((Mode.ofField field).map (pixOps ps)).getD [] →
      ∃ x y mode v, op = .pixop x y mode v := by
    intro field ps hmem
    obtain ⟨m, hm⟩ := mem_getD_map hmem
    obtain ⟨p, -, rfl⟩ := List.mem_map.mp hm
    exact ⟨_, _, _, _, rfl⟩
  cases i with
  | nop | scanOnce | fence => cases h
  | writePixel x y field v =>
    obtain ⟨m, hm⟩ := mem_getD_map h
    exact .inl ⟨_, _, _, _, List.mem_singleton.mp hm⟩
  | readPixel x y => exact .inr (.inr ⟨x, y, rfl, List.mem_singleton.mp h⟩)
  | clear b =>
    obtain ⟨k, hk, rfl⟩ := List.mem_map.mp h
    exact .inr (.inl ⟨k, b, rfl, List.mem_range.mp hk⟩)
  | line | box | filledBox | circle => exact .inl (pixels h)
  | glyph x y code g field =>
    dsimp only [Instr.microOps] at h
    split at h
    · simp only [glyphOps, List.mem_flatMap, List.mem_map] at h
      obtain ⟨row, -, col, -, rfl⟩ := h
      exact .inl ⟨_, _, _, _, rfl⟩
    · cases h
  | testPattern id =>
    obtain ⟨p, hp⟩ := mem_getD_map h
    simp only [patternOps, List.mem_flatMap, List.mem_map] at hp
    obtain ⟨y, -, x, -, rfl⟩ := hp
    exact .inl ⟨_, _, _, _, rfl⟩

theorem microOps_ok {c : Config} {i : Instr} {op : MicroOp} (h : op ∈ i.microOps c) : op.ok c := by
  obtain ⟨x, y, mode, v, rfl⟩ | ⟨k, b, rfl, hk⟩ | ⟨x, y, -, rfl⟩ := mem_microOps h
  · trivial
  · exact hk
  · trivial

theorem rdpix_mem_microOps {c : Config} {i : Instr} {x y : Int} (h : .rdpix x y ∈ i.microOps c) :
    i = .readPixel x y := by
  obtain ⟨_, _, _, _, ho⟩ | ⟨_, _, ho, -⟩ | ⟨_, _, hi, ho⟩ := mem_microOps h <;> cases ho
  exact hi

end Sys2Proof.Machine

/-! SUPPORT. What each agent's step can do, said once, and so what a step of the machine can do. -/

namespace Sys2Proof.Machine

/-- The SE's steps, phase by phase (42_scan.md R202, R203). -/
inductive ScanMoves (s : State) : State → Prop
  | skips (hse : s.se = .sample) (hbus : (drawBus s).1 = true) :
      ScanMoves s { (drawBus s).2 with skip := true, se := .idle }
  | starts (hse : s.se = .sample) (hbus : (drawBus s).1 = false) :
      ScanMoves s { (drawBus s).2 with skip := false, se := .transfer s.cursor .blank }
  | blanks (sl : BitVec 2) (hse : s.se = .transfer sl .blank) :
      ScanMoves s { emit (.oe false) s with rowOe := false, se := .transfer sl .select }
  | selects (sl : BitVec 2) (hse : s.se = .transfer sl .select) :
      ScanMoves s { emit (.sel sl) s with rowSel := sl, se := .transfer sl (.shift 0) }
  | shifts (sl : BitVec 2) (k off : Nat) (hse : s.se = .transfer sl (.shift k))
      (hoff : s.cfg.sliceOffset sl k = some off) (hlt : off < s.cfg.fbBytes) :
      ScanMoves s { emit (.shift (s.fb.read off)) s with
        se := .transfer sl (if k + 1 < s.cfg.sliceBytes then .shift (k + 1) else .latch) }
  | latches (sl : BitVec 2) (hse : s.se = .transfer sl .latch) :
      ScanMoves s { emit .latch s with se := .transfer sl .enable }
  | enables (sl : BitVec 2) (hse : s.se = .transfer sl .enable) :
      ScanMoves s { emit (.oe true) s with rowOe := true, se := .transfer sl .advance }
  | advances (sl : BitVec 2) (hse : s.se = .transfer sl .advance) :
      ScanMoves s { s with cursor := sl + 1, se := .idle }

/-- The host's moves (60_exceptions.md R258). -/
inductive HostMoves (s : State) : State → Prop
  | writes (w : Word) (rest : List HostMove) (hhost : s.host = .write w :: rest) (hslot : s.slot = none) :
      HostMoves s { s with slot := some w, host := rest }
  | reads (rest : List HostMove) (hhost : s.host = .readStatus :: rest) :
      HostMoves s { s with statusReads := s.statusReads ++ [status s], host := rest }
  | waits (rest : List HostMove) (hhost : s.host = .waitIdle :: rest) (hslot : s.slot = none)
      (hidle : (status s).extractLsb' 5 2 = 0#2) : HostMoves s { s with host := rest }
  | resets (rest : List HostMove) (hhost : s.host = .reset :: rest) :
      HostMoves s { resetBlock s with host := rest }

/-- The steps of the four agents (00_scope.md R5). -/
inductive Moves (s : State) : State → Prop
  | refuses (w : Word) (hslot : s.slot = some w) (e : Reject) (hw : decode w = .error e) :
      Moves s (raiseFault .illcmd s)
  | accepts {t : State} (w : Word) (hslot : s.slot = some w) (i : Instr) (hw : decode w = .ok i)
      (h : Accepts i s t) (hempty : t.slot = none) : Moves s t
  | draws {t : State} (op : MicroOp) (rest : List MicroOp) (hops : s.deOps = op :: rest)
      (h : perform op { s with deOps := rest } = .next t) : Moves s t
  | scans {t : State} (h : ScanMoves s t) : Moves s t
  | host {t : State} (h : HostMoves s t) : Moves s t

theorem seShift_next {sl : BitVec 2} {k : Nat} {s t : State} (h : seShift sl k s = .next t) : ∃ off,
    s.cfg.sliceOffset sl k = some off ∧ off < s.cfg.fbBytes ∧
      t = { emit (.shift (s.fb.read off)) s with
        se := .transfer sl (if k + 1 < s.cfg.sliceBytes then .shift (k + 1) else .latch) } := by
  unfold seShift at h
  split at h
  · cases h
  · next off hoff =>
    split at h <;> cases h
    exact ⟨off, hoff, by assumption, rfl⟩

theorem seStep_cases {s t : State} (h : seStep s = some (.next t)) : ScanMoves s t := by
  unfold seStep at h
  split at h
  · cases h
  · next hse =>
    cases h
    cases hbus : (drawBus s).1 with
    | true => exact .skips hse hbus
    | false => simpa [seSample] using ScanMoves.starts hse hbus
  · next sl phase hse =>
    have h := Option.some.inj h
    cases phase with
    | blank => cases h; exact .blanks sl hse
    | select => cases h; exact .selects sl hse
    | shift k =>
      obtain ⟨off, hoff, hlt, rfl⟩ := seShift_next h
      exact .shifts sl k off hse hoff hlt
    | latch => cases h; exact .latches sl hse
    | enable => cases h; exact .enables sl hse
    | advance => cases h; exact .advances sl hse

theorem hostStep_cases {s t : State} (h : hostStep s = some t) : HostMoves s t := by
  unfold hostStep at h
  split at h
  · cases h
  · next w rest hhost =>
    split at h <;> cases h
    next hslot => exact .writes w rest hhost (by simpa using hslot)
  · next rest hhost => cases h; exact .reads rest hhost
  · next rest hhost =>
    split at h <;> cases h
    next hwait =>
      simp only [Bool.and_eq_true, Option.isNone_iff_eq_none, beq_iff_eq] at hwait
      exact .waits rest hhost hwait.1 hwait.2
  · next rest hhost => cases h; exact .resets rest hhost

theorem agentStep_cases {a : Agent} {s t : State} (h : agentStep a s = some (.next t)) : Moves s t := by
  cases a with
  | port =>
    obtain ⟨w, hslot, ⟨e, he, hr⟩ | ⟨i, t', hi, -, ⟨hr, hempty, ha⟩ | hnot⟩⟩ := portStep_cases h
    · cases hr; exact .refuses w hslot e he
    · cases hr; exact .accepts w hslot i hi ha hempty
    · exact absurd rfl (hnot t)
  | de =>
    obtain ⟨op, rest, hops, hr⟩ := deStep_eq_some.mp h
    exact .draws op rest hops hr.symm
  | se => exact .scans (seStep_cases h)
  | host =>
    obtain ⟨t', ht', hr⟩ := Option.map_eq_some_iff.mp h
    cases hr; exact .host (hostStep_cases ht')

/-- A step that answers a state is one agent's move after the turn is taken, or nothing happens (20_memory.md R83). -/
theorem step_next_cases {s t : State} (h : step s = .next t) : t = s ∨ Moves (drawTurn s).2 t := by
  obtain ⟨hr, -⟩ | ⟨a, ha⟩ := step_cases h
  · cases hr; exact .inl rfl
  · exact .inr (agentStep_cases ha)

end Sys2Proof.Machine

/-! SUPPORT. Runs in which one agent alone can move: the port accepts, then the DE performs its list. -/

namespace Sys2Proof.Machine

theorem coreRun_succ_eq_next {M : Host.Core} {n : Nat} {s t : M.State} :
    M.run (n + 1) s = .next t ↔ ∃ u, M.step s = .next u ∧ M.run n u = .next t := by
  rw [Host.Core.run]
  cases M.step s <;> simp

theorem runsTo_zero {s t : State} (h : s = t) : runsTo 0 s t := h ▸ rfl

/-- A run is a first step and a run from there. -/
theorem runsTo_succ {n : Nat} {s t : State} : runsTo (n + 1) s t ↔ ∃ u, step s = .next u ∧ runsTo n u t :=
  coreRun_succ_eq_next (M := core)

/-- Where one agent alone can move, the step is that agent's, whatever the turn says (20_memory.md R83). -/
theorem step_of_only {s : State} {a : Agent} {r : Result} (h : agentStep a (drawTurn s).2 = some r)
    (honly : ∀ b, b ≠ a → agentStep b (drawTurn s).2 = none) : step s = r := by
  obtain ⟨-, hnone⟩ | ⟨b, hb⟩ := step_cases rfl (s := s)
  · rw [hnone a] at h; cases h
  · by_cases hba : b = a
    · subst hba; exact Option.some.inj (hb.symm.trans h)
    · rw [honly b hba] at hb; cases hb

theorem drawTurn_eq (s : State) : (drawTurn s).2 =
    { s with schedule := (drawTurn s).2.schedule, turns := (drawTurn s).2.turns } := by
  unfold drawTurn; split <;> rfl

theorem agentStep_port_of_empty {s : State} (h : s.slot = none) : agentStep .port s = none := by
  simp only [agentStep, portStep, h]

theorem agentStep_de_of_idle {s : State} (h : s.deOps = []) : agentStep .de s = none := by
  simp only [agentStep, deStep, h]

theorem agentStep_se_of_idle {s : State} (h : s.se = .idle) : agentStep .se s = none := by
  simp only [agentStep, seStep, h]

theorem agentStep_host_of_done {s : State} (h : s.host = []) : agentStep .host s = none := by
  simp only [agentStep, hostStep, h, Option.map]

theorem atRest_of_quiet {s : State} (h : quiet s) (hs : s.slot = none) : atRest s := by
  obtain ⟨hde, hse, hhost⟩ := h
  exact ⟨by simp [quiescent, hs, hhost, (deBusy_eq_false s).mpr hde, (seBusy_eq_false s).mpr hse], hhost⟩

/-- A micro-operation's effect on the DE's part of the state: the framebuffer is `fbAfter`, PIX and RDV change only by
RDPIX. -/
theorem perform_effect {op : MicroOp} {s : State} (h : op.ok s.cfg) : ∃ p r,
    perform op s = .next { s with fb := fbAfter s.cfg s.fb op, pix := p, rdv := r } ∧
      ((∀ x y, op ≠ .rdpix x y) → p = s.pix ∧ r = s.rdv) := by
  obtain ⟨t, ht⟩ := perform_ok h
  obtain ⟨rfl, -, -⟩ | ⟨x, y, rfl, rfl⟩ := perform_next ht
  · exact ⟨_, _, ht, fun _ => ⟨rfl, rfl⟩⟩
  · exact ⟨_, _, ht, fun hne => absurd rfl (hne x y)⟩

/-- A step in which the DE alone can move performs the head of its list (10_state.md R54). -/
theorem step_of_drawing_alone {s : State} {op : MicroOp} {ops : List MicroOp} (hslot : s.slot = none)
    (hse : s.se = .idle) (hhost : s.host = []) (hops : s.deOps = op :: ops) (hok : op.ok s.cfg) : ∃ p r sched n,
    step s = .next { s with deOps := ops, fb := fbAfter s.cfg s.fb op, pix := p, rdv := r, schedule := sched,
                            turns := n } ∧
      ((∀ x y, op ≠ .rdpix x y) → p = s.pix ∧ r = s.rdv) := by
  obtain ⟨p, r, hp, hkeep⟩ := perform_effect (s := { (drawTurn s).2 with deOps := ops }) (by simpa using hok)
  have hde : agentStep .de (drawTurn s).2 = some _ := deStep_eq_some.mpr ⟨op, ops, by simpa using hops, hp.symm⟩
  have hstep := step_of_only hde fun b hb => by
    cases b with
    | port => exact agentStep_port_of_empty (by simpa using hslot)
    | de => exact absurd rfl hb
    | se => exact agentStep_se_of_idle (by simpa using hse)
    | host => exact agentStep_host_of_done (by simpa using hhost)
  rw [drawTurn_eq] at hstep
  exact ⟨p, r, _, _, hstep, by simpa using hkeep⟩

/-- The DE alone at work performs its list to the end, one step for each micro-operation (20_memory.md R83). -/
theorem drawing_runs_to_its_end {s : State} (hslot : s.slot = none) (hse : s.se = .idle) (hhost : s.host = [])
    (hok : ∀ op ∈ s.deOps, op.ok s.cfg) : ∃ p r sched n,
    runsTo s.deOps.length s { s with deOps := [], fb := fbAfterAll s.cfg s.fb s.deOps, pix := p, rdv := r,
                                     schedule := sched, turns := n } ∧
      ((∀ x y, .rdpix x y ∉ s.deOps) → p = s.pix ∧ r = s.rdv) := by
  induction hops : s.deOps generalizing s with
  | nil =>
    have hs : s = { s with deOps := [] } := by rw [← hops]
    exact ⟨s.pix, s.rdv, s.schedule, s.turns, runsTo_zero hs, fun _ => ⟨rfl, rfl⟩⟩
  | cons op ops ih =>
    simp only [hops, List.forall_mem_cons] at hok
    obtain ⟨hop, hrest⟩ := hok
    obtain ⟨p, r, sched, n, hstep, hkeep⟩ := step_of_drawing_alone hslot hse hhost hops hop
    obtain ⟨p', r', sched', n', hrun, hkeep'⟩ := ih (s := { s with deOps := ops, fb := fbAfter s.cfg s.fb op, pix := p,
                                                                   rdv := r, schedule := sched, turns := n })
      hslot hse hhost hrest rfl
    refine ⟨p', r', sched', n', runsTo_succ.mpr ⟨_, hstep, hrun⟩, fun hne => ?_⟩
    obtain ⟨hp, hr⟩ := hkeep fun x y he => hne x y (he ▸ List.mem_cons_self ..)
    obtain ⟨hp', hr'⟩ := hkeep' fun x y hm => hne x y (List.mem_cons_of_mem _ hm)
    exact ⟨hp'.trans hp, hr'.trans hr⟩

/-- In a quiet state with a legal DE command in the slot, the next step accepts it. -/
theorem step_of_legal_drawing {s : State} {i : Instr} (hq : quiet s) (hi : i.wf = true) (hd : i.op.isDrawing = true)
    (hs : s.slot = some (encode i)) (hv : verdict s.cfg (encode i) = .execute i.op) : ∃ sched n,
    step s = .next { accept s with deOps := i.microOps s.cfg, schedule := sched, turns := n } := by
  obtain ⟨hde, hse, hhost⟩ := hq
  have hport : agentStep .port (drawTurn s).2 = some _ :=
    portStep_of_legal_drawing hi hd (by simpa using hs) (by simpa using hv) (by simpa using hde)
  have hstep := step_of_only hport fun b hb => by
    cases b with
    | port => exact absurd rfl hb
    | de => exact agentStep_de_of_idle (by simpa using hde)
    | se => exact agentStep_se_of_idle (by simpa using hse)
    | host => exact agentStep_host_of_done (by simpa using hhost)
  rw [drawTurn_eq] at hstep
  exact ⟨_, _, hstep⟩

end Sys2Proof.Machine

/-! SUPPORT. Who writes which part of the state (10_state.md). -/

namespace Sys2Proof.Machine

/-- What the SE writes: CURSOR, ROW_OE, ROW_SEL, SKIP and the history (42_scan.md R207). -/
def scanPart (s : State) : BitVec 2 × Bool × BitVec 2 × Bool × List Event :=
  (s.cursor, s.rowOe, s.rowSel, s.skip, s.events)

/-- What the DE writes: FB, PIX and RDV (10_state.md R32, R38, R39). -/
def drawPart (s : State) : Memory × Bool × Bool := (s.fb, s.pix, s.rdv)

/-- Each field of the SE's part changes only in its phase (10_state.md R35, R41, R51, R52). -/
abbrev ScanPartWritten (s t : State) : Prop :=
  (t.cursor ≠ s.cursor → ∃ sl, s.se = .transfer sl .advance ∧ t.cursor = sl + 1) ∧
  (t.rowOe ≠ s.rowOe → ∃ sl, (s.se = .transfer sl .blank ∧ t.rowOe = false) ∨
    (s.se = .transfer sl .enable ∧ t.rowOe = true)) ∧
  (t.rowSel ≠ s.rowSel → ∃ sl, s.se = .transfer sl .select ∧ t.rowSel = sl) ∧
  (t.skip ≠ s.skip → s.se = .sample) ∧
  (t.events ≠ s.events → ∃ sl phase, s.se = .transfer sl phase ∧ phase ≠ .advance)

/-- The DE's part changes only by the head of the DE's list, and the list only by losing its head or by an acceptance
while it is empty (10_state.md R32, R38, R39, R54). -/
abbrev DrawPartWritten (s t : State) : Prop :=
  (t.fb ≠ s.fb → ∃ op rest, s.deOps = op :: rest ∧ t.deOps = rest ∧ t.fb = fbAfter s.cfg s.fb op) ∧
  (t.pix ≠ s.pix ∨ t.rdv ≠ s.rdv → ∃ x y rest, s.deOps = .rdpix x y :: rest ∧ t.deOps = rest ∧
    t.pix = (s.cfg.inRange x y && pixelBit s.cfg s.fb x y) ∧ t.rdv = s.cfg.inRange x y) ∧
  (t.deOps ≠ s.deOps → (∃ op, s.deOps = op :: t.deOps) ∨ (s.deOps = [] ∧ s.slot ≠ none ∧ t.slot = none)) ∧
  t.cfg = s.cfg

theorem ScanPartWritten.of_eq {s t : State} (h : scanPart t = scanPart s) : ScanPartWritten s t := by
  simp only [scanPart, Prod.mk.injEq] at h
  simp [ScanPartWritten, h]

theorem DrawPartWritten.of_eq {s t : State} (h : drawPart t = drawPart s) (hops : t.deOps = s.deOps)
    (hcfg : t.cfg = s.cfg) : DrawPartWritten s t := by
  simp only [drawPart, Prod.mk.injEq] at h
  simp [DrawPartWritten, h, hops, hcfg]

/-! The SE writes its own part in its phases and leaves the DE's. -/

theorem ScanMoves.scanPartWritten {s t : State} (h : ScanMoves s t) : ScanPartWritten s t := by
  cases h with
  | skips hse | starts hse | blanks sl hse | selects sl hse | shifts sl k off hse | latches sl hse | enables sl hse
  | advances sl hse =>
    simp [ScanPartWritten, hse]

theorem ScanMoves.drawPartWritten {s t : State} (h : ScanMoves s t) : DrawPartWritten s t := by
  cases h <;> exact .of_eq (by simp [drawPart]) (by simp) (by simp)

/-! The DE writes its own part by its micro-operations and leaves the SE's. -/

theorem perform_scanPart {op : MicroOp} {s t : State} (h : perform op s = .next t) : scanPart t = scanPart s := by
  obtain ⟨rfl, -, -⟩ | ⟨x, y, -, rfl⟩ := perform_next h <;> rfl

theorem perform_drawPartWritten {op : MicroOp} {rest : List MicroOp} {s t : State} (hops : s.deOps = op :: rest)
    (h : perform op { s with deOps := rest } = .next t) : DrawPartWritten s t := by
  obtain ⟨rfl, -, -⟩ | ⟨x, y, rfl, rfl⟩ := perform_next h
  · exact ⟨fun _ => ⟨op, rest, hops, rfl, rfl⟩, by simp, fun _ => .inl ⟨op, hops⟩, rfl⟩
  · exact ⟨by simp, fun _ => ⟨x, y, rest, hops, rfl, rfl, rfl⟩, fun _ => .inl ⟨.rdpix x y, hops⟩, rfl⟩

/-! An acceptance and a refusal write neither part, but an acceptance can give an idle DE its list. -/

theorem Accepts.scanPart_eq {i : Instr} {s t : State} (h : Accepts i s t) : scanPart t = scanPart s := by
  rw [h.frame]; rfl

theorem Accepts.drawPartWritten {i : Instr} {s t : State} {w : Word} (h : Accepts i s t) (hslot : s.slot = some w)
    (hempty : t.slot = none) : DrawPartWritten s t := by
  have hpart : t.fb = s.fb ∧ t.pix = s.pix ∧ t.rdv = s.rdv ∧ t.cfg = s.cfg := by rw [h.frame]; simp
  obtain ⟨hfb, hpix, hrdv, hcfg⟩ := hpart
  refine ⟨by simp [hfb], by simp [hpix, hrdv], fun hne => .inr ?_, hcfg⟩
  exact ⟨(h.deOps_changed hne).2, by simp [hslot], hempty⟩

/-- The host writes neither part but by RESET (70_reset_and_hazards.md R280). -/
theorem HostMoves.parts_eq {s t : State} (h : HostMoves s t) :
    (∃ rest, s.host = .reset :: rest ∧ t = { resetBlock s with host := rest }) ∨
      scanPart t = scanPart s ∧ drawPart t = drawPart s ∧ t.deOps = s.deOps ∧ t.cfg = s.cfg := by
  cases h with
  | resets rest hhost => exact .inl ⟨rest, hhost, rfl⟩
  | writes | reads | waits => exact .inr ⟨rfl, rfl, rfl, rfl⟩

/-- A move of any agent is RESET, or writes both parts only as their owners may. -/
theorem Moves.partsWritten {s t : State} (h : Moves s t) :
    (∃ rest, s.host = .reset :: rest ∧ t = { resetBlock s with host := rest }) ∨
      ScanPartWritten s t ∧ DrawPartWritten s t := by
  cases h with
  | refuses => exact .inr ⟨.of_eq (by simp [scanPart]), .of_eq (by simp [drawPart]) (by simp) (by simp)⟩
  | accepts w hslot i hw h hempty => exact .inr ⟨.of_eq h.scanPart_eq, h.drawPartWritten hslot hempty⟩
  | draws op rest hops h =>
    have hscan : scanPart t = scanPart { s with deOps := rest } := perform_scanPart h
    exact .inr ⟨.of_eq hscan, perform_drawPartWritten hops h⟩
  | scans h => exact .inr ⟨h.scanPartWritten, h.drawPartWritten⟩
  | host h =>
    obtain hreset | ⟨hscan, hdraw, hops, hcfg⟩ := h.parts_eq
    · exact .inl hreset
    · exact .inr ⟨.of_eq hscan, .of_eq hdraw hops hcfg⟩

/-- So is a step of the machine, which takes a turn before the move. -/
theorem step_partsWritten {s t : State} (h : step s = .next t) :
    (∃ rest, s.host = .reset :: rest ∧ t = { resetBlock (drawTurn s).2 with host := rest }) ∨
      ScanPartWritten s t ∧ DrawPartWritten s t := by
  obtain rfl | hmove := step_next_cases h
  · exact .inr ⟨.of_eq rfl, .of_eq rfl rfl rfl⟩
  · simpa only [ScanPartWritten, DrawPartWritten, drawTurn_cfg, drawTurn_fb, drawTurn_cursor, drawTurn_pix, drawTurn_rdv,
      drawTurn_skip, drawTurn_deOps, drawTurn_se, drawTurn_slot, drawTurn_rowOe, drawTurn_rowSel, drawTurn_events,
      drawTurn_host] using hmove.partsWritten

end Sys2Proof.Machine

/-! SUPPORT. STATUS and the host's moves (10_state.md R37, R48 to R50). -/

namespace Sys2Proof.Machine

/-- The bits of STATUS (10_state.md R37): bits 3:2 are CURSOR, bits 7 and 15:11 are reserved. -/
def statusBit (s : State) : Nat → Bool
  | 0 => s.pix
  | 1 => s.rdv
  | 2 => s.cursor.getLsbD 0
  | 3 => s.cursor.getLsbD 1
  | 4 => s.skip
  | 5 => deBusy s
  | 6 => seBusy s
  | 8 => s.fIllcmd
  | 9 => s.fIllmode
  | 10 => s.fIllarg
  | _ => false

theorem status_getLsbD (s : State) (k : Nat) : (status s).getLsbD k = statusBit s k := by
  unfold status
  simp only [BitVec.getLsbD_append]
  match k with
  | 0 | 1 | 2 | 3 | 4 | 5 | 6 | 7 | 8 | 9 | 10 => simp [statusBit]
  | k + 11 => simp [statusBit]

theorem status_deBusy_iff (s : State) : (status s).getLsbD 5 = true ↔ s.deOps ≠ [] := by
  rw [status_getLsbD]
  simp [statusBit, deBusy]

theorem status_seBusy_iff (s : State) : (status s).getLsbD 6 = true ↔ s.se ≠ .idle := by
  rw [status_getLsbD, statusBit, ← Bool.not_eq_false, Ne, not_congr (seBusy_eq_false s)]

theorem status_cursor (s : State) : (status s).extractLsb' 2 2 = s.cursor := by
  apply BitVec.eq_of_getLsbD_eq
  intro k hk
  rw [BitVec.getLsbD_extractLsb', status_getLsbD]
  match k, hk with
  | 0, _ | 1, _ => rfl

theorem status_high (s : State) : (status s).extractLsb' 11 5 = 0 := by
  apply BitVec.eq_of_getLsbD_eq
  intro k hk
  rw [BitVec.getLsbD_extractLsb', status_getLsbD, Nat.add_comm 11]
  simp [statusBit]

theorem hostStep_read {s : State} {rest : List HostMove} (h : s.host = .readStatus :: rest) :
    hostStep s = some { s with statusReads := s.statusReads ++ [status s], host := rest } := by
  simp only [hostStep, h]

theorem hostStep_write {s : State} {w : Word} {rest : List HostMove} (h : s.host = .write w :: rest) :
    hostStep s = if s.slot.isNone then some { s with slot := some w, host := rest } else none := by
  simp only [hostStep, h]

end Sys2Proof.Machine

/-! The statements about the state (10_state.md). -/

namespace Sys2Proof.Machine

/-- Settles O22: a command always answers, and each way of accepting it keeps the frame. -/
theorem everyCommandAnswersANextState : Obligations.EveryCommandAnswersANextState := by
  intro i s
  obtain ⟨t, ht⟩ := exec_answers i s
  have h := exec_cases ht
  exact ⟨t, ht, h.consumed, h.frame, h.deOps_changed, h.se_changed, h.flag_kept (f := .illmode),
    h.flag_kept (f := .illarg)⟩

/-- Settles O36: one acceptance, then the DE alone at work, by induction on its list. -/
theorem aDrawingCommandRunsToItsEnd : Obligations.ADrawingCommandRunsToItsEnd := by
  intro s i _ hq hi hd hs hv
  obtain ⟨hde, hse, hhost⟩ := hq
  obtain ⟨sched, n, haccept⟩ := step_of_legal_drawing ⟨hde, hse, hhost⟩ hi hd hs hv
  obtain ⟨p, r, sched', n', hrun, hkeep⟩ := drawing_runs_to_its_end
    (s := { accept s with deOps := i.microOps s.cfg, schedule := sched, turns := n }) rfl hse hhost
    fun op hop => microOps_ok hop
  rw [Nat.add_comm 1]
  refine ⟨_, runsTo_succ.mpr ⟨_, haccept, hrun⟩, atRest_of_quiet ⟨rfl, hse, hhost⟩ rfl, rfl, ?_, fun hne => ?_⟩
  · simp [accept, hde]
  · exact hkeep fun x y hm => hne x y (rdpix_mem_microOps hm)

/-- Settles O49: only the SE writes its part, each field in its phase. -/
theorem scanStateIsWrittenOnlyInItsPhase : Obligations.ScanStateIsWrittenOnlyInItsPhase := by
  intro s t h
  obtain ⟨rest, hhost, rfl⟩ | ⟨hscan, -⟩ := step_partsWritten h
  · exact .inl ⟨rest, hhost, rfl⟩
  · exact .inr hscan

/-- Settles O57: only the DE writes its part, by the head of its list. -/
theorem drawingStateIsWrittenOnlyByTheDrawingEngine : Obligations.DrawingStateIsWrittenOnlyByTheDrawingEngine := by
  intro s t h
  obtain ⟨rest, hhost, rfl⟩ | ⟨-, hdraw⟩ := step_partsWritten h
  · exact .inl ⟨rest, hhost, rfl, rfl, rfl, fun _ => rfl⟩
  · exact .inr hdraw

/-- Settles O8: the bits stand in STATUS's own table. -/
theorem statusShowsItsFields : Obligations.StatusShowsItsFields := by
  intro s
  exact ⟨status_getLsbD s 0, status_getLsbD s 1, status_cursor s, status_getLsbD s 4, status_deBusy_iff s,
    status_seBusy_iff s, status_getLsbD s 7, status_getLsbD s 8, status_getLsbD s 9, status_getLsbD s 10, status_high s⟩

/-- Settles O11, by the host's move at the head of its list. -/
theorem theHostReadsStatusAndWritesTheEmptySlot : Obligations.TheHostReadsStatusAndWritesTheEmptySlot := by
  intro s rest
  refine ⟨fun h => ?_, fun w h => ⟨fun hslot => ?_, fun hslot => ?_⟩⟩
  · simp [agentStep, hostStep_read h]
  · simp [agentStep, hostStep_write h, hslot]
  · simp [agentStep, hostStep_write h, hslot]

end Sys2Proof.Machine

/-! SUPPORT. The byte-wide link (20_memory.md R76): the eight bytes of a word, joined, are the word. -/

namespace Sys2Proof

theorem wordOfBytes_bytesOfWord (w : Word) :
    wordOfBytes (w.extractLsb' 56 8) (w.extractLsb' 48 8) (w.extractLsb' 40 8) (w.extractLsb' 32 8)
      (w.extractLsb' 24 8) (w.extractLsb' 16 8) (w.extractLsb' 8 8) (w.extractLsb' 0 8) = w := by
  apply BitVec.eq_of_getLsbD_eq
  intro i hi
  simp only [wordOfBytes, BitVec.getLsbD_append, BitVec.getLsbD_extractLsb']
  repeat' split
  all_goals rw [decide_eq_true (by omega), Bool.true_and]; congr 1; omega

/-- Fewer than eight bytes are no word yet. -/
theorem decodeBytes_of_short {bytes : List Byte} (h : bytes.length < 8) : decodeBytes bytes = .error .truncated := by
  unfold decodeBytes
  split
  · simp only [List.length_cons] at h; omega
  · rfl

end Sys2Proof

/-! SUPPORT. Where an agent cannot move: an idle engine, a port whose word waits for a busy engine, a host with no move
or with a move that waits (30_encoding.md R111, R114). -/

namespace Sys2Proof.Machine

theorem status_idle_iff (s : State) : (status s).extractLsb' 5 2 = 0#2 ↔ s.deOps = [] ∧ s.se = .idle := by
  rw [← deBusy_eq_false, ← seBusy_eq_false]
  constructor
  · intro h
    have bit : ∀ k < 2, (status s).getLsbD (5 + k) = false := fun k hk => by
      simpa [hk] using congrArg (BitVec.getLsbD · k) h
    exact ⟨(status_getLsbD s 5).symm.trans (bit 0 (by omega)), (status_getLsbD s 6).symm.trans (bit 1 (by omega))⟩
  · rintro ⟨hde, hse⟩
    apply BitVec.eq_of_getLsbD_eq
    intro k hk
    rw [BitVec.getLsbD_extractLsb', status_getLsbD]
    match k, hk with
    | 0, _ => simpa [statusBit] using hde
    | 1, _ => simpa [statusBit] using hse

theorem idle_of_deStep_none {s : State} (h : deStep s = none) : s.deOps = [] := by
  unfold deStep at h
  split at h
  · assumption
  · cases h

theorem idle_of_seStep_none {s : State} (h : seStep s = none) : s.se = .idle := by
  unfold seStep at h
  split at h
  · assumption
  · cases h
  · cases h

theorem startDrawingIn_empties {s : State} (h : s.deOps = []) (field : BitVec 3) (ops : Mode → List MicroOp) :
    ∃ t, startDrawingIn field ops s = .next t ∧ t.slot = none := by
  unfold startDrawingIn; split
  · exact ⟨_, rfl, raiseFault_slot ..⟩
  · exact ⟨_, startDrawing_of_idle h _, rfl⟩

/-- With both engines idle no command waits (30_encoding.md R111). -/
theorem exec_empties_of_idle {s : State} (hde : s.deOps = []) (hse : s.se = .idle) (i : Instr) :
    ∃ t, exec i s = .next t ∧ t.slot = none := by
  have hde' := (deBusy_eq_false s).mpr hde
  have hse' := (seBusy_eq_false s).mpr hse
  cases i with
  | nop => exact ⟨_, rfl, rfl⟩
  | readPixel | clear => exact ⟨_, startDrawing_of_idle hde _, rfl⟩
  | writePixel | line | box | filledBox | circle => exact startDrawingIn_empties hde ..
  | glyph x y code g mode =>
    dsimp only [exec, execGlyph]
    split
    · exact ⟨_, rfl, raiseFault_slot ..⟩
    · exact ⟨_, rfl, raiseFault_slot ..⟩
    · exact ⟨_, startDrawing_of_idle hde _, rfl⟩
  | testPattern id =>
    dsimp only [exec, execTestPattern]
    split
    · exact ⟨_, rfl, raiseFault_slot ..⟩
    · exact ⟨_, startDrawing_of_idle hde _, rfl⟩
  | scanOnce => exact ⟨{ accept s with se := .sample }, by simp [exec, execScanOnce, hse'], rfl⟩
  | fence => exact ⟨accept s, by simp [exec, execFence, hde', hse'], rfl⟩

/-- With both engines idle the port can only be without a word. -/
theorem empty_of_portStep_none {s : State} (hde : s.deOps = []) (hse : s.se = .idle) (h : portStep s = none) :
    s.slot = none := by
  unfold portStep at h
  split at h
  · assumption
  · split at h
    · cases h
    · next i hi =>
      obtain ⟨t, ht, hempty⟩ := exec_empties_of_idle hde hse i
      simp [ht, hempty] at h

/-- With both engines idle and the slot empty the host can make any move. -/
theorem done_of_hostStep_none {s : State} (hde : s.deOps = []) (hse : s.se = .idle) (hslot : s.slot = none)
    (h : hostStep s = none) : s.host = [] := by
  unfold hostStep at h
  split at h
  · assumption
  · simp [hslot] at h
  · cases h
  · simp [hslot, (status_idle_iff s).mpr ⟨hde, hse⟩] at h
  · cases h

/-- Where no agent can move nothing is left to do (20_memory.md R84). -/
theorem atRest_of_none_moves {s : State} (h : ∀ a, agentStep a s = none) : atRest s := by
  have hde := idle_of_deStep_none (h .de)
  have hse := idle_of_seStep_none (h .se)
  have hslot := empty_of_portStep_none hde hse (h .port)
  have hhost := done_of_hostStep_none hde hse hslot (Option.map_eq_none_iff.mp (h .host))
  exact atRest_of_quiet ⟨hde, hse, hhost⟩ hslot

end Sys2Proof.Machine

/-! SUPPORT. What the invariant's configuration gives a scan: SliceOrder(s) has SLICE_BYTES offsets, all of them of
bytes that exist (00_scope.md R8, 42_scan.md R201). -/

namespace Sys2Proof

theorem length_defaultSliceOrder (width height s : Nat) :
    (defaultSliceOrder width height s).length = height / 4 * (width / 8) := by
  simp [defaultSliceOrder, List.length_flatMap]

theorem lt_of_mem_defaultSliceOrder {width height s off : Nat} (hs : s < 4) (hh : height % 4 = 0)
    (h : off ∈ defaultSliceOrder width height s) : off < width / 8 * height := by
  simp only [defaultSliceOrder, List.mem_flatMap, List.mem_map, List.mem_range] at h
  obtain ⟨k, hk, c, hc, rfl⟩ := h
  have hrow : s + 4 * k + 1 ≤ height := by omega
  calc (s + 4 * k) * (width / 8) + c < (s + 4 * k) * (width / 8) + width / 8 := Nat.add_lt_add_left hc _
    _ = (s + 4 * k + 1) * (width / 8) := (Nat.succ_mul ..).symm
    _ ≤ height * (width / 8) := Nat.mul_le_mul_right _ hrow
    _ = width / 8 * height := Nat.mul_comm ..

theorem Config.sliceOrder_perm {c : Config} (hc : c.wf) (sl : BitVec 2) :
    (c.sliceOrder[sl.toNat]'sl.isLt).Perm (defaultSliceOrder c.width c.height sl.toNat) := by
  obtain ⟨-, -, -, -, -, -, hperm, -⟩ := hc
  exact hperm ⟨sl.toNat, sl.isLt⟩

/-- In a legal configuration a shift step with k below SLICE_BYTES has a byte to read (20_memory.md R70). -/
theorem Config.exists_sliceOffset {c : Config} (hc : c.wf) (sl : BitVec 2) {k : Nat} (hk : k < c.sliceBytes) :
    ∃ off, c.sliceOffset sl k = some off ∧ off < c.fbBytes := by
  have hperm := Config.sliceOrder_perm hc sl
  have hlen : k < (c.sliceOrder[sl.toNat]'sl.isLt).length := by
    rw [hperm.length_eq, length_defaultSliceOrder]; exact hk
  obtain ⟨-, -, -, hh, -⟩ := hc
  exact ⟨_, List.getElem?_eq_getElem hlen,
    lt_of_mem_defaultSliceOrder sl.isLt hh (hperm.mem_iff.mp (List.getElem_mem hlen))⟩

theorem Config.sliceBytes_pos {c : Config} (hc : c.wf) : 0 < c.sliceBytes := by
  obtain ⟨-, hw, -, -, hh, -⟩ := hc
  exact Nat.mul_pos (Nat.div_pos hh (by decide)) (Nat.div_pos hw (by decide))

end Sys2Proof

/-! SUPPORT. The state invariant (20_memory.md R70, 42_scan.md R202): every agent's step answers a state, and each move
keeps the invariant. -/

namespace Sys2Proof.Machine

/-- From a state that meets the invariant no agent's step stops the machine (log 10). -/
theorem State.Inv.agentStep_answers {s : State} (hs : s.Inv) {a : Agent} {r : Result} (h : agentStep a s = some r) :
    ∃ t, r = .next t := by
  cases a with
  | port =>
    obtain ⟨w, -, ⟨e, -, hr⟩ | ⟨i, -, -, hx, -⟩⟩ := portStep_cases h
    · exact ⟨_, hr⟩
    · obtain ⟨t, ht⟩ := exec_answers i s
      exact ⟨t, hx.symm.trans ht⟩
  | de =>
    obtain ⟨op, rest, hops, rfl⟩ := deStep_eq_some.mp h
    exact perform_ok (hs.opsOk op (by simp [hops]))
  | se =>
    have hscan := hs.scanOk
    dsimp only [agentStep, seStep] at h
    split at h
    · cases h
    · cases h; exact ⟨_, rfl⟩
    · next sl phase hse =>
      cases h
      cases phase with
      | shift k =>
        rw [hse] at hscan
        obtain ⟨-, -, -, hk⟩ := hscan
        obtain ⟨off, hoff, hlt⟩ := Config.exists_sliceOffset hs.cfgOk sl hk
        exact ⟨_, by simp only [seTransfer, seShift, hoff, if_pos hlt]; rfl⟩
      | blank | select | latch | enable | advance => exact ⟨_, rfl⟩
  | host =>
    obtain ⟨t, -, hr⟩ := Option.map_eq_some_iff.mp h
    exact ⟨t, hr.symm⟩

/-- What a scan's phase asks of the outputs depends only on the outputs and the configuration. -/
theorem Scan.ok_congr {s t : State} (hcfg : t.cfg = s.cfg) (hpart : scanPart t = scanPart s) (se : Scan) :
    se.ok t ↔ se.ok s := by
  simp only [scanPart, Prod.mk.injEq] at hpart
  obtain ⟨hcursor, hoe, hsel, -⟩ := hpart
  unfold Scan.ok
  rw [hcfg, hcursor, hoe, hsel]

/-- The invariant reads nothing but the configuration, the framebuffer, the engines and the outputs. -/
theorem State.Inv.of_eq {s t : State} (hs : s.Inv) (hcfg : t.cfg = s.cfg) (hfb : t.fb = s.fb)
    (hops : t.deOps = s.deOps) (hse : t.se = s.se) (hpart : scanPart t = scanPart s) : t.Inv where
  cfgOk := hcfg ▸ hs.cfgOk
  fbOk := hfb ▸ hs.fbOk
  fbInside := by rw [hfb, hcfg]; exact hs.fbInside
  opsOk := by rw [hops, hcfg]; exact hs.opsOk
  scanOk := by rw [hse, Scan.ok_congr hcfg hpart]; exact hs.scanOk

theorem resetOf_inv {c : Config} (hc : c.wf) : (State.resetOf c).Inv where
  cfgOk := hc
  fbOk := ⟨.nil, nofun⟩
  fbInside := nofun
  opsOk := nofun
  scanOk := trivial

theorem drawTurn_inv {s : State} (hs : s.Inv) : (drawTurn s).2.Inv :=
  hs.of_eq (by simp) (by simp) (by simp) (by simp) (by simp [scanPart])

theorem fbAfter_wf {fb : Memory} (hfb : fb.wf) (c : Config) (op : MicroOp) : (fbAfter c fb op).wf := by
  cases op with
  | pixop x y mode v => exact pixopFb_wf hfb ..
  | rdpix x y => exact hfb
  | fill i b => exact Memory.write_wf hfb ..

theorem fbAfter_inside {c : Config} (hc : c.wf) {fb : Memory} (hfb : ∀ d ∈ fb, d.1 < c.fbBytes) {op : MicroOp}
    (hop : op.ok c) : ∀ d ∈ fbAfter c fb op, d.1 < c.fbBytes := by
  cases op with
  | pixop x y mode v => exact pixopFb_inside hc hfb x y mode v
  | rdpix x y => exact hfb
  | fill i b => exact Memory.write_inside hfb hop b

/-- The micro-operations a command brings name only bytes that exist, and the sample phase asks nothing. -/
theorem Accepts.inv {i : Instr} {s t : State} (h : Accepts i s t) (hs : s.Inv) : t.Inv := by
  cases h with
  | waits => exact hs
  | raises => exact hs.of_eq (by simp) (by simp) (by simp) (by simp) (by simp [scanPart])
  | nop | fence => exact hs.of_eq rfl rfl rfl rfl rfl
  | draws => exact ⟨hs.cfgOk, hs.fbOk, hs.fbInside, fun op hop => microOps_ok hop, hs.scanOk⟩
  | scans => exact ⟨hs.cfgOk, hs.fbOk, hs.fbInside, hs.opsOk, trivial⟩

theorem perform_inv {op : MicroOp} {rest : List MicroOp} {s t : State} (hops : s.deOps = op :: rest)
    (h : perform op { s with deOps := rest } = .next t) (hs : s.Inv) : t.Inv := by
  have hok := hs.opsOk
  rw [hops, List.forall_mem_cons] at hok
  obtain ⟨hop, hrest⟩ := hok
  obtain ⟨p, r, ht, -⟩ := perform_effect (s := { s with deOps := rest }) hop
  cases ht.symm.trans h
  exact ⟨hs.cfgOk, fbAfter_wf hs.fbOk _ op, fbAfter_inside hs.cfgOk hs.fbInside hop, hrest, hs.scanOk⟩

/-- Each phase of a scan leaves the outputs as the next one asks (42_scan.md R202). -/
theorem ScanMoves.scanOk {s t : State} (h : ScanMoves s t) (hs : s.Inv) : t.se.ok t := by
  have hscan := hs.scanOk
  cases h with
  | skips | advances => trivial
  | starts => simp
  | blanks sl hse => rw [hse] at hscan; exact ⟨hscan, rfl⟩
  | selects sl hse =>
    rw [hse] at hscan
    obtain ⟨hcursor, hoe⟩ := hscan
    exact ⟨hcursor, hoe, rfl, Config.sliceBytes_pos hs.cfgOk⟩
  | shifts sl k off hse =>
    rw [hse] at hscan
    obtain ⟨hcursor, hoe, hsel, -⟩ := hscan
    dsimp only
    split
    · next hk => exact ⟨hcursor, hoe, hsel, hk⟩
    · exact ⟨hcursor, hoe, hsel⟩
  | latches sl hse => rw [hse] at hscan; exact hscan
  | enables sl hse =>
    rw [hse] at hscan
    obtain ⟨hcursor, -, hsel⟩ := hscan
    exact ⟨hcursor, rfl, hsel⟩

/-- The SE writes neither the framebuffer nor the DE's list (42_scan.md R207). -/
theorem ScanMoves.frame {s t : State} (h : ScanMoves s t) :
    t.cfg = s.cfg ∧ t.fb = s.fb ∧ t.deOps = s.deOps ∧ t.slot = s.slot ∧ t.host = s.host := by
  cases h <;> simp

theorem ScanMoves.inv {s t : State} (h : ScanMoves s t) (hs : s.Inv) : t.Inv := by
  obtain ⟨hcfg, hfb, hops, -, -⟩ := h.frame
  exact ⟨hcfg ▸ hs.cfgOk, hfb ▸ hs.fbOk, by rw [hfb, hcfg]; exact hs.fbInside, by rw [hops, hcfg]; exact hs.opsOk,
    h.scanOk hs⟩

theorem HostMoves.inv {s t : State} (h : HostMoves s t) (hs : s.Inv) : t.Inv := by
  cases h with
  | writes | reads | waits => exact hs.of_eq rfl rfl rfl rfl rfl
  | resets => exact (resetOf_inv hs.cfgOk).of_eq rfl rfl rfl rfl rfl

theorem Moves.inv {s t : State} (h : Moves s t) (hs : s.Inv) : t.Inv := by
  cases h with
  | refuses => exact hs.of_eq (by simp) (by simp) (by simp) (by simp) (by simp [scanPart])
  | accepts w hslot i hw h hempty => exact h.inv hs
  | draws op rest hops h => exact perform_inv hops h hs
  | scans h => exact h.inv hs
  | host h => exact h.inv hs

/-- A step from a state that meets the invariant: none can move, or one agent moves to a state that meets it. -/
theorem State.Inv.step_moves {s : State} (hs : s.Inv) :
    (step s = .next s ∧ ∀ a, agentStep a (drawTurn s).2 = none) ∨
      ∃ t, step s = .next t ∧ Moves (drawTurn s).2 t ∧ t.Inv := by
  obtain hnone | ⟨a, ha⟩ := step_cases rfl (s := s)
  · exact .inl hnone
  · obtain ⟨t, ht⟩ := (drawTurn_inv hs).agentStep_answers ha
    have hmove := agentStep_cases (ht ▸ ha)
    exact .inr ⟨t, ht, hmove, hmove.inv (drawTurn_inv hs)⟩

end Sys2Proof.Machine

/-! SUPPORT. The work a state has left (70_reset_and_hazards.md R290): every move uses some up, and it is used up exactly
where nothing is left to do. -/

namespace Sys2Proof.Machine

theorem drawTurn_workLeft (s : State) : workLeft (drawTurn s).2 = workLeft s := by simp [workLeft]

theorem atRest_iff (s : State) : atRest s ↔ s.host = [] ∧ s.slot = none ∧ s.deOps = [] ∧ s.se = .idle := by
  constructor
  · rintro ⟨hq, hhost⟩
    simp only [quiescent, Bool.and_eq_true, Bool.not_eq_true', Option.isNone_iff_eq_none, deBusy_eq_false,
      seBusy_eq_false] at hq
    obtain ⟨⟨⟨hslot, -⟩, hde⟩, hse⟩ := hq
    exact ⟨hhost, hslot, hde, hse⟩
  · rintro ⟨hhost, hslot, hde, hse⟩
    exact atRest_of_quiet ⟨hde, hse, hhost⟩ hslot

theorem moveWork_pos (c : Config) (move : HostMove) : 0 < moveWork c move := by
  cases move with
  | write w => exact Nat.add_pos_left (by decide) _
  | readStatus | waitIdle | reset => exact Nat.one_pos

theorem scanWork_eq_zero {c : Config} {se : Scan} : scanWork c se = 0 ↔ se = .idle := by
  cases se with
  | idle => simp [scanWork]
  | sample => simp [scanWork]
  | transfer sl phase => cases phase <;> simp [scanWork]

theorem hostWork_eq_zero {c : Config} {moves : List HostMove} : (moves.map (moveWork c)).sum = 0 ↔ moves = [] := by
  cases moves with
  | nil => simp
  | cons move rest => simp [(moveWork_pos c move).ne']

theorem slotWork_eq_zero {c : Config} {slot : Option Word} :
    (slot.map fun w => 1 + wordWork c w).getD 0 = 0 ↔ slot = none := by
  cases slot <;> simp

theorem workLeft_eq_zero {s : State} : workLeft s = 0 ↔ atRest s := by
  rw [atRest_iff, workLeft]
  simp only [Nat.add_eq_zero_iff, hostWork_eq_zero, slotWork_eq_zero, List.length_eq_zero_iff, scanWork_eq_zero,
    and_assoc]

theorem wordWork_of_drawing {c : Config} {w : Word} {i : Instr} (hw : decode w = .ok i) (hi : i.op.isDrawing = true) :
    wordWork c w = (i.microOps c).length := by
  unfold wordWork
  rw [hw]
  cases i with
  | scanOnce => cases hi
  | nop | writePixel | readPixel | clear | line | box | filledBox | circle | glyph | testPattern | fence => rfl

theorem Accepts.workLeft_lt {i : Instr} {s t : State} {w : Word} (h : Accepts i s t) (hslot : s.slot = some w)
    (hw : decode w = .ok i) (hempty : t.slot = none) : workLeft t < workLeft s := by
  cases h with
  | waits => rw [hslot] at hempty; cases hempty
  | raises | nop | fence => simp [workLeft, hslot]
  | draws hi hde => simp [workLeft, hslot, hde, wordWork_of_drawing hw hi]
  | scans hi hse =>
    subst hi
    have hwork : wordWork s.cfg w = s.cfg.sliceBytes + 6 := by simp [wordWork, hw]
    simp [workLeft, hslot, hse, hwork, scanWork]; omega

/-- The phases count down (42_scan.md R202). -/
theorem ScanMoves.scanWork_lt {s t : State} (h : ScanMoves s t) (hs : s.Inv) :
    scanWork s.cfg t.se < scanWork s.cfg s.se := by
  have hscan := hs.scanOk
  cases h with
  | shifts sl k off hse =>
    rw [hse] at hscan ⊢
    obtain ⟨-, -, -, hk⟩ := hscan
    dsimp only
    split <;> simp only [scanWork] <;> omega
  | skips hse | starts hse | blanks sl hse | selects sl hse | latches sl hse | enables sl hse | advances sl hse =>
    simp [hse, scanWork]

theorem HostMoves.workLeft_lt {s t : State} (h : HostMoves s t) : workLeft t < workLeft s := by
  cases h with
  | writes w rest hhost hslot => simp [workLeft, hhost, hslot, moveWork]; omega
  | reads rest hhost | waits rest hhost => simp [workLeft, hhost, moveWork]
  | resets rest hhost => simp [workLeft, hhost, moveWork, scanWork]; omega

/-- Every move uses up pending work. -/
theorem Moves.workLeft_lt {s t : State} (h : Moves s t) (hs : s.Inv) : workLeft t < workLeft s := by
  cases h with
  | refuses w hslot => simp [workLeft, hslot]
  | accepts w hslot i hw h hempty => exact h.workLeft_lt hslot hw hempty
  | draws op rest hops h =>
    obtain ⟨p, r, ht, -⟩ := perform_effect (s := { s with deOps := rest }) (hs.opsOk op (by simp [hops]))
    cases ht.symm.trans h
    simp [workLeft, hops]
  | scans h =>
    have hlt := h.scanWork_lt hs
    obtain ⟨hcfg, -, hops, hslot, hhost⟩ := h.frame
    simp only [workLeft, hcfg, hops, hslot, hhost]
    omega
  | host h => exact h.workLeft_lt

/-- A run of at least as many steps as there is pending work ends at rest, and stays there (log 19). -/
theorem runs_to_rest {n : Nat} {s : State} (hs : s.Inv) (hn : workLeft s ≤ n) : ∃ t, runsTo n s t ∧ atRest t := by
  induction n generalizing s with
  | zero => exact ⟨s, runsTo_zero rfl, workLeft_eq_zero.mp (Nat.le_zero.mp hn)⟩
  | succ n ih =>
    obtain ⟨hstep, hnone⟩ | ⟨u, hstep, hmove, hu⟩ := hs.step_moves
    · have hzero : workLeft s = 0 := drawTurn_workLeft s ▸ workLeft_eq_zero.mpr (atRest_of_none_moves hnone)
      obtain ⟨t, hrun, hrest⟩ := ih hs (by omega)
      exact ⟨t, runsTo_succ.mpr ⟨s, hstep, hrun⟩, hrest⟩
    · have hlt := hmove.workLeft_lt (drawTurn_inv hs)
      rw [drawTurn_workLeft] at hlt
      obtain ⟨t, hrun, hrest⟩ := ih hu (by omega)
      exact ⟨t, runsTo_succ.mpr ⟨u, hstep, hrun⟩, hrest⟩

end Sys2Proof.Machine

/-! SUPPORT. Runs in which no word is to come: the DE works its list off and nothing else touches the framebuffer
(20_memory.md R85). -/

namespace Sys2Proof.Machine

/-- No word waits, and the host only reads STATUS or waits. -/
abbrev NoWordToCome (s : State) : Prop := s.slot = none ∧ ∀ move ∈ s.host, move = .readStatus ∨ move = .waitIdle

/-- `t` is `s` with the first `k` of the DE's micro-operations performed, as far as the DE's work goes. -/
abbrev Drawn (k : Nat) (s t : State) : Prop :=
  t.cfg = s.cfg ∧ k ≤ s.deOps.length ∧ t.deOps = s.deOps.drop k ∧ t.fb = fbAfterAll s.cfg s.fb (s.deOps.take k)

theorem Drawn.of_eq {s t : State} (hcfg : t.cfg = s.cfg) (hops : t.deOps = s.deOps) (hfb : t.fb = s.fb) : Drawn 0 s t :=
  ⟨hcfg, Nat.zero_le _, hops, hfb⟩

theorem fbAfterAll_append (c : Config) (fb : Memory) (ops ops' : List MicroOp) :
    fbAfterAll c fb (ops ++ ops') = fbAfterAll c (fbAfterAll c fb ops) ops' := List.foldl_append ..

theorem Drawn.trans {j k : Nat} {s u t : State} (h : Drawn j s u) (h' : Drawn k u t) : Drawn (j + k) s t := by
  obtain ⟨hcfg, hj, hops, hfb⟩ := h
  obtain ⟨hcfg', hk, hops', hfb'⟩ := h'
  rw [hops, List.length_drop] at hk
  refine ⟨hcfg'.trans hcfg, by omega, ?_, ?_⟩
  · rw [hops', hops, List.drop_drop]
  · rw [hfb', hcfg, hfb, hops, List.take_add, fbAfterAll_append]

theorem perform_drawn {op : MicroOp} {rest : List MicroOp} {s t : State} (hops : s.deOps = op :: rest)
    (h : perform op { s with deOps := rest } = .next t) : Drawn 1 s t := by
  obtain ⟨rfl, -, -⟩ | ⟨x, y, rfl, rfl⟩ := perform_next h <;> simp [Drawn, hops, fbAfterAll, fbAfter]

theorem perform_noWordToCome {op : MicroOp} {rest : List MicroOp} {s t : State}
    (h : perform op { s with deOps := rest } = .next t) (hs : NoWordToCome s) : NoWordToCome t := by
  obtain ⟨rfl, -, -⟩ | ⟨x, y, -, rfl⟩ := perform_next h <;> exact hs

/-- Where no word is to come, a move performs the head of the DE's list or leaves list and framebuffer as they are. -/
theorem Moves.drawn {s t : State} (h : Moves s t) (hs : NoWordToCome s) : NoWordToCome t ∧ ∃ k, Drawn k s t := by
  obtain ⟨hslot, hhost⟩ := hs
  cases h with
  | refuses w hw | accepts w hw => rw [hslot] at hw; cases hw
  | draws op rest hops h => exact ⟨perform_noWordToCome h ⟨hslot, hhost⟩, 1, perform_drawn hops h⟩
  | scans h =>
    obtain ⟨hcfg, hfb, hops, hslot', hhost'⟩ := h.frame
    exact ⟨⟨hslot'.trans hslot, hhost' ▸ hhost⟩, 0, .of_eq hcfg hops hfb⟩
  | host h =>
    cases h with
    | writes w rest hmoves | resets rest hmoves => simp [hmoves] at hhost
    | reads rest hmoves | waits rest hmoves =>
      rw [hmoves, List.forall_mem_cons] at hhost
      exact ⟨⟨hslot, hhost.2⟩, 0, .of_eq rfl rfl rfl⟩

theorem step_drawn {s t : State} (h : step s = .next t) (hs : NoWordToCome s) : NoWordToCome t ∧ ∃ k, Drawn k s t := by
  obtain rfl | hmove := step_next_cases h
  · exact ⟨hs, 0, .of_eq rfl rfl rfl⟩
  · simpa [NoWordToCome, Drawn] using hmove.drawn (by simpa [NoWordToCome] using hs)

/-- In every run in which no word is to come, the DE has performed a first part of its list (20_memory.md R83). -/
theorem run_drawn {n : Nat} {s t : State} (h : runsTo n s t) (hs : NoWordToCome s) : ∃ k, Drawn k s t := by
  induction n generalizing s with
  | zero => cases h; exact ⟨0, .of_eq rfl rfl rfl⟩
  | succ n ih =>
    obtain ⟨u, hstep, hrun⟩ := runsTo_succ.mp h
    obtain ⟨hu, j, hj⟩ := step_drawn hstep hs
    obtain ⟨k, hk⟩ := ih hrun hu
    exact ⟨j + k, hj.trans hk⟩

/-- A shift step appends the byte that the framebuffer then holds (42_scan.md R202). -/
theorem shift_events {s t : State} {sl : BitVec 2} {k : Nat} (hse : s.se = .transfer sl (.shift k))
    (h : agentStep .se s = some (.next t)) :
    ∃ off, s.cfg.sliceOffset sl k = some off ∧ t.events = s.events ++ [.shift (s.fb.read off)] := by
  have hshift : seShift sl k s = .next t := by simpa [agentStep, seStep, hse, seTransfer] using h
  obtain ⟨off, hoff, -, rfl⟩ := seShift_next hshift
  exact ⟨off, hoff, rfl⟩

end Sys2Proof.Machine

/-! The statements about memory and the interleaving (20_memory.md). -/

namespace Sys2Proof.Machine

/-- Settles O54: no agent's step stops, and each kind of move keeps the invariant. -/
theorem everyStepKeepsTheInvariant : Obligations.EveryStepKeepsTheInvariant := by
  intro s hs
  obtain ⟨hstep, -⟩ | ⟨t, hstep, -, ht⟩ := hs.step_moves
  · exact ⟨s, hstep, hs⟩
  · exact ⟨t, hstep, ht⟩

/-- Settles O6: the eight bytes joined are the word, and fewer are none. -/
theorem aByteWideLinkSendsTheMostSignificantByteFirst :
    Obligations.AByteWideLinkSendsTheMostSignificantByteFirst := by
  refine ⟨fun w rest => ?_, fun bytes => decodeBytes_of_short⟩
  cases hw : decode w with
  | ok i | error e => simp [bytesOfWord, decodeBytes, wordOfBytes_bytesOfWord, hw]

/-- Settles O52: the step is that of the agent picked, and the one that is to move is picked where it can move. -/
theorem everyInterleavingOfAgentStepsIsARun : Obligations.EveryInterleavingOfAgentStepsIsARun := by
  refine ⟨fun s => (step_cases rfl).symm, fun s a rest r h => ?_⟩
  have hmem : a ∈ enabled { s with schedule := rest } := mem_enabled.mpr (by simp [h])
  simp [step, moveOne, drawTurn, pick_want hmem, h]

/-- Settles O53: idle engines, then an empty slot, then no host move left. -/
theorem nothingIsEverStuck : Obligations.NothingIsEverStuck := fun _ => atRest_of_none_moves

/-- Settles O56, by induction on the number of steps: each move uses up pending work. -/
theorem everyRunEnds : Obligations.EveryRunEnds := fun _ hs => runs_to_rest hs le_rfl

/-- Settles O59: a run performs a first part of the DE's list, and the SE reads the framebuffer as it then stands. -/
theorem aScanSeesOnlyPrefixesOfADrawing : Obligations.AScanSeesOnlyPrefixesOfADrawing := by
  intro n s t hslot hhost hrun
  obtain ⟨k, hcfg, hk, hops, hfb⟩ := run_drawn hrun ⟨hslot, hhost⟩
  refine ⟨k, hk, hops, hfb, fun u sl j hse hstep => ?_⟩
  rw [← hfb, ← hcfg]
  exact shift_events hse hstep

end Sys2Proof.Machine

/-! SUPPORT. A word that an operation's mask matches is the word of the command it builds (30_encoding.md R104, R106),
and the decoder's answers said by the word's bits. -/

namespace Sys2Proof

theorem op_build (op : Op) (w : Word) : (op.build w).op = op := by cases op <;> rfl

theorem Geometry.toBit_ofBit (b : Bool) : (Geometry.ofBit b).toBit = b := by cases b <;> rfl

theorem coordOk_aField (w : Word) : coordOk (aField w) = true := coordOk_toInt _
theorem coordOk_bField (w : Word) : coordOk (bField w) = true := coordOk_toInt _
theorem coordOk_cField (w : Word) : coordOk (cField w) = true := coordOk_toInt _
theorem coordOk_dField (w : Word) : coordOk (dField w) = true := coordOk_toInt _

/-- A command's coordinates are fields of twelve bits, so every decoded command is encodable. -/
theorem build_wf (op : Op) (w : Word) : (op.build w).wf = true := by
  cases op <;>
    simp [Op.build, Instr.wf, coordOk_aField, coordOk_bField, coordOk_cField, coordOk_dField]

/-! A mask's field that is all ones keeps the word's field whole. -/

@[simp] theorem and_ones1 (x : BitVec 1) : x &&& 1#1 = x := BitVec.and_allOnes
@[simp] theorem and_ones3 (x : BitVec 3) : x &&& 7#3 = x := BitVec.and_allOnes
@[simp] theorem and_ones4 (x : BitVec 4) : x &&& 15#4 = x := BitVec.and_allOnes
@[simp] theorem and_ones8 (x : BitVec 8) : x &&& 255#8 = x := BitVec.and_allOnes
@[simp] theorem and_ones12 (x : BitVec 12) : x &&& 4095#12 = x := BitVec.and_allOnes

theorem exists_mask_fields (fmt : Format) : ∃ m v x a b c d, fmt.mask = joinFields 15 m v x a b c d := by
  cases fmt with
  | n => exact ⟨_, _, _, _, _, _, _, mask_n⟩
  | p => exact ⟨_, _, _, _, _, _, _, mask_p⟩
  | r => exact ⟨_, _, _, _, _, _, _, mask_r⟩
  | f => exact ⟨_, _, _, _, _, _, _, mask_f⟩
  | l => exact ⟨_, _, _, _, _, _, _, mask_l⟩
  | ci => exact ⟨_, _, _, _, _, _, _, mask_ci⟩
  | g => exact ⟨_, _, _, _, _, _, _, mask_g⟩
  | t => exact ⟨_, _, _, _, _, _, _, mask_t⟩

/-- A mask matches exactly when OPC is the operation's and the reserved fields are 0: checks 1 and 2 of 30_encoding.md
R110 are R106's mask. -/
theorem mask_matches_iff {w : Word} {op : Op} : w &&& op.format.mask = (op.code.setWidth 64) <<< 60 ↔
    opcField w = op.code ∧ w &&& op.reserved = 0 := by
  have hopc : (0x0FFFFFFFFFFFFFFF : Word) = joinFields 0 7 1 255 4095 4095 4095 4095 := by decide
  have hzero : (0 : Word) = joinFields 0 0 0 0 0 0 0 0 := by decide
  obtain ⟨m, v, x, a, b, c, d, hmask⟩ := exists_mask_fields op.format
  rw [Op.reserved, hmask, hopc, hzero, code_shift_eq_joinFields, word_eq_joinFields w]
  simp only [joinFields_and, joinFields_inj, opcField_joinFields]
  simp

/-- Where the mask matches, the fields that the command does not name are 0, and `encode` writes 0 there. -/
theorem encode_build {w : Word} {op : Op} (hm : w &&& op.format.mask = (op.code.setWidth 64) <<< 60) :
    encode (op.build w) = w := by
  rw [code_shift_eq_joinFields, word_eq_joinFields w] at hm
  refine Eq.trans ?_ (word_eq_joinFields w).symm
  cases op <;> simp only [Op.format, mask_n, mask_p, mask_r, mask_f, mask_l, mask_ci, mask_g, mask_t, joinFields_and,
    joinFields_inj] at hm
  -- `hm` now says of each reserved field that it is 0, as `encode` writes it
  all_goals simp_all [encode, Op.build, pack_eq_joinFields, Geometry.toBit_ofBit]

theorem decode_eq_ok_iff_encode {w : Word} {i : Instr} : decode w = .ok i ↔ i.wf = true ∧ encode i = w := by
  constructor
  · intro h
    obtain ⟨op, -, hm, rfl⟩ := decode_eq_ok.mp h
    exact ⟨build_wf op w, encode_build hm⟩
  · rintro ⟨hi, rfl⟩
    exact decode_encode hi

/-- A word decodes to an operation exactly when that operation's mask matches it (30_encoding.md R106). -/
theorem decodes_to_op_iff {w : Word} {op : Op} : (∃ i, decode w = .ok i ∧ i.op = op) ↔
    w &&& op.format.mask = (op.code.setWidth 64) <<< 60 := by
  constructor
  · rintro ⟨i, h, rfl⟩
    obtain ⟨op, -, hm, rfl⟩ := decode_eq_ok.mp h
    rwa [op_build]
  · intro hm
    exact ⟨op.build w, decode_eq_ok.mpr ⟨op, (mask_matches_iff.mp hm).1, hm, rfl⟩, op_build op w⟩

theorem toNat_opcField (w : Word) : (opcField w).toNat = (w >>> 60).toNat := by
  have := w.isLt
  simp only [opcField, BitVec.extractLsb'_toNat, BitVec.toNat_ushiftRight, Nat.shiftRight_eq_div_pow]
  omega

/-- Check 1 of 30_encoding.md R110. -/
theorem decode_eq_reservedOpcode {w : Word} : decode w = .error .reservedOpcode ↔ 0xC ≤ (opcField w).toNat := by
  rw [← ofCode_eq_none, decode]
  split
  · next h => simp [h]
  · next op h => split <;> simp [h]

/-- A whole word is never an incomplete one (20_memory.md R76). -/
theorem decode_ne_truncated (w : Word) : decode w ≠ .error .truncated := by
  unfold decode
  split
  · simp
  · split <;> simp

/-- Check 2 of 30_encoding.md R110: the opcode names an operation, and no operation's mask matches. -/
theorem decode_eq_reservedField {w : Word} : decode w = .error .reservedField ↔
    (opcField w).toNat < 0xC ∧ ∀ op : Op, w &&& op.format.mask ≠ (op.code.setWidth 64) <<< 60 := by
  have hrange : (opcField w).toNat < 0xC ↔ decode w ≠ .error .reservedOpcode := by
    rw [Ne, decode_eq_reservedOpcode, not_le]
  rw [hrange]
  constructor
  · intro h
    refine ⟨by simp [h], fun op hm => ?_⟩
    obtain ⟨i, hi, -⟩ := decodes_to_op_iff.mpr hm
    simp [h] at hi
  · rintro ⟨hopc, hnone⟩
    cases h : decode w with
    | ok i => exact absurd (decodes_to_op_iff.mp ⟨i, h, rfl⟩) (hnone i.op)
    | error e =>
      cases e with
      | reservedOpcode => exact absurd h hopc
      | reservedField => rfl
      | truncated => exact absurd h (decode_ne_truncated w)

end Sys2Proof

/-! The statements about the encoding (30_encoding.md R100 to R107). -/

namespace Sys2Proof

/-- Settles O1: the word of a command matches its operation's mask and carries every operand in its field. -/
theorem decodingAnEncodedCommandGivesItBack : Obligations.DecodingAnEncodedCommandGivesItBack :=
  fun _ => decode_encode

/-- Settles O2: the mask leaves only the operands' fields free, and `encode` writes them back. -/
theorem encodingADecodedWordGivesItBack : Obligations.EncodingADecodedWordGivesItBack :=
  fun _ _ => decode_eq_ok_iff_encode.mp

/-- Settles O3: the rows are the model's own masks and codes, and the decoder answers by them. -/
theorem aWordSelectsTheRowItsMaskMatches : Obligations.AWordSelectsTheRowItsMaskMatches := by
  intro row hrow w
  have htable : row.2.2 = row.1.format.mask ∧ row.2.1 <<< 60 = (row.1.code.setWidth 64) <<< 60 := by
    revert row
    decide
  rw [htable.1, htable.2]
  exact decodes_to_op_iff

/-- Settles O4, by the decoder's two reasons. -/
theorem illegalWordsAreRejectedByName : Obligations.IllegalWordsAreRejectedByName := by
  intro w
  rw [← toNat_opcField]
  exact ⟨decode_eq_reservedOpcode, decode_eq_reservedField⟩

end Sys2Proof

/-! SUPPORT. The verdict of 30_encoding.md R110 and the decoder: a word that does not decode has the verdict F_ILLCMD, and
the verdict of an encoded command is checks 3 to 5 on its own operands. -/

namespace Sys2Proof

open Machine

theorem verdict_of_decode_error {w : Word} {e : Reject} (h : decode w = .error e) (c : Config) :
    verdict c w = .fault .illcmd := by
  unfold verdict
  split
  · rfl
  · next op hop =>
    refine if_pos fun hres => ?_
    have hm := mask_matches_iff.mpr ⟨ofCode_eq_some.mp hop, hres⟩
    obtain ⟨i, hi, -⟩ := decodes_to_op_iff.mpr hm
    rw [h] at hi
    cases hi

/-- Checks 1 and 2 pass for every encoded command. -/
theorem verdict_encode (c : Config) (i : Instr) : verdict c (encode i) =
    if i.op.takesMode = true ∧ 5 ≤ (modeField (encode i)).toNat then .fault .illmode
    else if i.op = .testPattern ∧ 3 < (auxField (encode i)).toNat then .fault .illarg
    else if i.op = .glyph ∧ c.glyph (Geometry.ofBit (vField (encode i))) (auxField (encode i)) = none then .fault .illarg
    else .execute i.op := by
  obtain ⟨hopc, hres⟩ := mask_matches_iff.mp (encode_and_mask i)
  unfold verdict
  rw [hopc, code_ofCode]
  exact if_neg (not_not.mpr hres)

/-- A word whose verdict is Execute decodes to the command that its operation builds. -/
theorem decode_of_verdict_execute {c : Config} {w : Word} {op : Op} (h : verdict c w = .execute op) :
    decode w = .ok (op.build w) := by
  obtain ⟨hop, hres, -⟩ := verdict_execute h
  have hopc := ofCode_eq_some.mp hop
  exact decode_eq_ok.mpr ⟨op, hopc, mask_matches_iff.mpr ⟨hopc, hres⟩, rfl⟩

theorem Mode.ofField_eq_none {m : BitVec 3} (h : 5 ≤ m.toNat) : Mode.ofField m = none := by
  have key : ∀ m : BitVec 3, 5 ≤ m.toNat → Mode.ofField m = none := by decide
  exact key m h

theorem Pattern.ofId_eq_none {id : Byte} (h : 3 < id.toNat) : Pattern.ofId id = none := by
  have key : ∀ id : Byte, 3 < id.toNat → Pattern.ofId id = none := by decide
  exact key id h

end Sys2Proof

/-! SUPPORT. The commands one by one: when they wait, when they are refused (30_encoding.md R110, R111), and what the
port's step and the machine's step make of their answer. -/

namespace Sys2Proof.Machine

theorem startDrawing_of_busy {s : State} (h : s.deOps ≠ []) (ops : List MicroOp) : startDrawing ops s = .next s := by
  have hbusy : deBusy s = true := by simpa using mt (deBusy_eq_false s).mp h
  rw [startDrawing, if_pos hbusy, wait]

theorem startDrawingIn_of_undefined {field : BitVec 3} (h : 5 ≤ field.toNat) (ops : Mode → List MicroOp) (s : State) :
    startDrawingIn field ops s = .next (raiseFault .illmode s) := by
  simp only [startDrawingIn, Mode.ofField_eq_none h]

theorem exec_glyph_of_undefined {field : BitVec 3} (h : 5 ≤ field.toNat) (x y : Int) (code : Byte) (g : Geometry)
    (s : State) : exec (.glyph x y code g field) s = .next (raiseFault .illmode s) := by
  simp only [exec, execGlyph, Mode.ofField_eq_none h]

theorem exec_glyph_of_absent {s : State} {code : Byte} {g : Geometry} (h : s.cfg.glyph g code = none)
    {field : BitVec 3} (hf : field.toNat < 5) (x y : Int) :
    exec (.glyph x y code g field) s = .next (raiseFault .illarg s) := by
  obtain ⟨m, hm⟩ := Mode.exists_ofField hf
  simp only [exec, execGlyph, hm, h]

theorem exec_testPattern_of_undefined {id : Byte} (h : 3 < id.toNat) (s : State) :
    exec (.testPattern id) s = .next (raiseFault .illarg s) := by
  simp only [exec, execTestPattern, Pattern.ofId_eq_none h]

theorem exec_scanOnce_of_idle {s : State} (h : s.se = .idle) :
    exec .scanOnce s = .next { accept s with se := .sample } := by
  simp [exec, execScanOnce, (seBusy_eq_false s).mpr h]

theorem exec_scanOnce_of_busy {s : State} (h : s.se ≠ .idle) : exec .scanOnce s = .next s := by
  have hbusy : seBusy s = true := by simpa using mt (seBusy_eq_false s).mp h
  simp [exec, execScanOnce, hbusy, wait]

theorem exec_fence_of_idle {s : State} (hde : s.deOps = []) (hse : s.se = .idle) :
    exec .fence s = .next (accept s) := by
  simp [exec, execFence, (deBusy_eq_false s).mpr hde, (seBusy_eq_false s).mpr hse]

theorem exec_fence_of_busy {s : State} (h : ¬(s.deOps = [] ∧ s.se = .idle)) : exec .fence s = .next s := by
  have hbusy : (deBusy s || seBusy s) = true := by
    rw [← deBusy_eq_false, ← seBusy_eq_false] at h
    simpa [or_iff_not_imp_left] using h
  rw [exec, execFence, if_pos hbusy, wait]

/-- A command with the verdict of a fault raises that fault, whatever the engines do (30_encoding.md R110). -/
theorem exec_of_verdict_fault {s : State} {i : Instr} {f : FaultFlag} (h : verdict s.cfg (encode i) = .fault f) :
    exec i s = .next (raiseFault f s) := by
  rw [verdict_encode] at h
  split_ifs at h with hmode hid hcode <;> cases h
  · obtain ⟨htakes, hlt⟩ := hmode
    cases i with
    | nop | readPixel | clear | testPattern | scanOnce | fence => cases htakes
    | writePixel | line | box | filledBox | circle =>
      exact startDrawingIn_of_undefined (by simpa [encode, modeField_pack] using hlt) _ _
    | glyph => exact exec_glyph_of_undefined (by simpa [encode, modeField_pack] using hlt) _ _ _ _ _
  · obtain ⟨hop, hlt⟩ := hid
    cases i <;> cases hop
    exact exec_testPattern_of_undefined (by simpa [encode, auxField_pack] using hlt) _
  · obtain ⟨hop, hnone⟩ := hcode
    cases i <;> cases hop
    refine exec_glyph_of_absent ?_ ?_ _ _
    · simpa [encode, vField_pack, auxField_pack, Geometry.ofBit_toBit] using hnone
    · simpa [Instr.op, Op.takesMode, encode, modeField_pack] using hmode

theorem portStep_of_decode_error {s : State} {w : Word} {e : Reject} (hs : s.slot = some w)
    (hw : decode w = .error e) : portStep s = some (.next (raiseFault .illcmd s)) := by
  simp only [portStep, hs, hw]

/-- The port moves where the command's answer empties the slot (30_encoding.md R111; log 6). -/
theorem portStep_of_exec {s t : State} {w : Word} {i : Instr} (hs : s.slot = some w) (hw : decode w = .ok i)
    (ht : exec i s = .next t) (hempty : t.slot = none) : portStep s = some (.next t) := by
  simp [portStep, hs, hw, ht, hempty]

theorem portStep_of_waiting {s : State} {w : Word} {i : Instr} (hs : s.slot = some w) (hw : decode w = .ok i)
    (ht : exec i s = .next s) : portStep s = none := by
  simp [portStep, hs, hw, ht]

/-- A refused word is consumed and sets the verdict's flag, whether it decodes or not (60_exceptions.md R240). -/
theorem portStep_of_verdict_fault {s : State} {w : Word} {f : FaultFlag} (hs : s.slot = some w)
    (hv : verdict s.cfg w = .fault f) : portStep s = some (.next (raiseFault f s)) := by
  cases hw : decode w with
  | error e =>
    rw [verdict_of_decode_error hw] at hv
    cases hv
    exact portStep_of_decode_error hs hw
  | ok i =>
    obtain ⟨-, rfl⟩ := decode_eq_ok_iff_encode.mp hw
    exact portStep_of_exec hs hw (exec_of_verdict_fault hv) (raiseFault_slot ..)

/-- A legal DE command is accepted exactly when the DE is idle (30_encoding.md R111). -/
theorem portStep_of_verdict_drawing {s : State} {w : Word} {op : Op} (hs : s.slot = some w)
    (hv : verdict s.cfg w = .execute op) (hd : op.isDrawing = true) : portStep s =
      if s.deOps = [] then some (.next { accept s with deOps := (op.build w).microOps s.cfg }) else none := by
  have hw := decode_of_verdict_execute hv
  have hx : exec (op.build w) s = startDrawing ((op.build w).microOps s.cfg) s :=
    exec_eq_startDrawing (by rwa [op_build]) (by rwa [(decode_eq_ok_iff_encode.mp hw).2, op_build])
  split
  · next hde => exact portStep_of_exec hs hw (hx.trans (startDrawing_of_idle hde _)) rfl
  · next hde => exact portStep_of_waiting hs hw (hx.trans (startDrawing_of_busy hde _))

/-- Where it is the port's turn and the port can move, the step is the port's (20_memory.md R83). -/
theorem step_of_port_turn {s : State} {r : Result} (hturn : (drawTurn s).1 = .port)
    (hr : portStep (drawTurn s).2 = some r) : step s = r := by
  have hmem : Agent.port ∈ enabled (drawTurn s).2 := mem_enabled.mpr (by simp [agentStep, hr])
  simp [step, moveOne, hturn, pick_want hmem, agentStep, hr]

theorem drawTurn_withFetchWord (s : State) (nbits w : Nat) :
    drawTurn (s.withFetchWord nbits w) = (.port, { s with slot := some (tableWord nbits w) }) := rfl

theorem decodeTableWord_eq_some {nbits w : Nat} {i : Instr} :
    decodeTableWord nbits w = some i ↔ decode (tableWord nbits w) = .ok i := by
  unfold decodeTableWord
  cases decode (tableWord nbits w) <;> simp [Except.toOption]

end Sys2Proof.Machine

/-! The statements about the port's acceptance (30_encoding.md R110, R111). -/

namespace Sys2Proof.Machine

/-- Settles O12, by the verdict's cases. -/
theorem thePortFollowsTheVerdict : Obligations.ThePortFollowsTheVerdict := by
  intro s w hs
  cases hv : verdict s.cfg w with
  | fault f => exact portStep_of_verdict_fault hs hv
  | execute op =>
    have hw := decode_of_verdict_execute hv
    cases op with
    | nop => exact portStep_of_exec hs hw (t := accept s) rfl rfl
    | fence =>
      dsimp only
      split
      · next h => exact portStep_of_exec hs hw (exec_fence_of_idle h.1 h.2) rfl
      · next h => exact portStep_of_waiting hs hw (exec_fence_of_busy h)
    | scanOnce =>
      dsimp only
      split
      · next h => exact portStep_of_exec hs hw (exec_scanOnce_of_idle h) rfl
      · next h => exact portStep_of_waiting hs hw (exec_scanOnce_of_busy h)
    | writePixel | readPixel | clear | line | box | filledBox | circle | glyph | testPattern =>
      exact portStep_of_verdict_drawing hs hv rfl

/-- Settles O21: no check refuses the command, and a busy DE takes no list. -/
theorem aDrawingCommandWaitsForTheDrawingEngine : Obligations.ADrawingCommandWaitsForTheDrawingEngine :=
  fun _ _ _ hbusy hd hv => (exec_eq_startDrawing hd hv).trans (startDrawing_of_busy hbusy _)

/-- Settles O14, by whether the SE is idle. -/
theorem scanOnceStartsTheIdleScanEngine : Obligations.ScanOnceStartsTheIdleScanEngine :=
  fun _ => ⟨exec_scanOnce_of_idle, exec_scanOnce_of_busy⟩

/-- Settles O20, one check of R110 after the other. -/
theorem illegalOperandsAreRefused : Obligations.IllegalOperandsAreRefused := by
  intro s
  refine ⟨fun x y x2 y2 code g v field hf i hi => ?_, fun id hid => exec_testPattern_of_undefined hid s,
    fun x y code g field hf hnone => exec_glyph_of_absent hnone hf x y⟩
  simp only [List.mem_cons, List.not_mem_nil, or_false] at hi
  obtain rfl | rfl | rfl | rfl | rfl | rfl := hi
  case inr.inr.inr.inr.inr => exact exec_glyph_of_undefined hf ..
  all_goals exact startDrawingIn_of_undefined hf ..

/-- Settles O51: the turn is the port's, and the port answers what `exec` answers. -/
theorem aStepRunsTheDecodedCommand : Obligations.AStepRunsTheDecodedCommand := by
  refine ⟨fun s t w i hturn hs hw ht hempty => ?_, fun s w e hturn hs hw => ?_, fun s t nbits w i hw ht hempty => ?_⟩
  · rw [ht]
    exact step_of_port_turn hturn (portStep_of_exec ((drawTurn_slot s).trans hs) hw ht hempty)
  · exact step_of_port_turn hturn (portStep_of_decode_error ((drawTurn_slot s).trans hs) hw)
  · refine step_of_port_turn rfl ?_
    rw [drawTurn_withFetchWord]
    exact portStep_of_exec rfl (decodeTableWord_eq_some.mp hw) ht hempty

end Sys2Proof.Machine

/-! SUPPORT. What the assembler's operands and forms yield (30_encoding.md R113): coordinates that twelve bits hold,
defined modes and defined pattern ids. -/

namespace Sys2Proof

open Machine

/-- Encodable, and past checks 3 and 4 of 30_encoding.md R110. -/
def Instr.Legal (i : Instr) : Prop :=
  i.wf = true ∧ (i.op.takesMode = true → (modeField (encode i)).toNat < 5) ∧
    (i.op = .testPattern → (auxField (encode i)).toNat ≤ 3)

/-- Only check 5, an absent glyph, can refuse the word of a legal command. -/
theorem Instr.Legal.verdict_cases {i : Instr} (h : i.Legal) (c : Config) : verdict c (encode i) = .execute i.op ∨
    ((∃ x y code g mode, i = .glyph x y code g mode) ∧ verdict c (encode i) = .fault .illarg) := by
  obtain ⟨-, hmode, hid⟩ := h
  rw [verdict_encode, if_neg fun hm => absurd (hmode hm.1) (not_lt.mpr hm.2),
    if_neg fun hm => absurd (hid hm.1) (not_le.mpr hm.2)]
  split
  · next hglyph =>
    refine .inr ⟨?_, rfl⟩
    cases i <;> cases hglyph.1
    exact ⟨_, _, _, _, _, rfl⟩
  · exact .inl rfl

theorem coordOk_of_coordOperand {cs : List Char} {n : Int} (h : coordOperand cs = some n) : coordOk n = true :=
  (Option.filter_eq_some_iff.mp h).2

theorem nameOperand_lt {names : List String} {cs : List Char} {k : Nat} (h : nameOperand names cs = some k) :
    k < names.length := by
  unfold nameOperand at h
  split at h
  · next j hj =>
    cases h
    exact (List.findIdx?_eq_some_iff_getElem.mp hj).1
  · split at h
    · split at h <;> cases h
      omega
    · cases h

theorem modeOperand_lt {cs : List Char} {m : BitVec 3} (h : modeOperand cs = some m) : m.toNat < 5 := by
  obtain ⟨k, hk, rfl⟩ := Option.map_eq_some_iff.mp h
  exact lt_of_le_of_lt (Nat.mod_le ..) (nameOperand_lt hk)

theorem patternOperand_le {cs : List Char} {id : Byte} (h : patternOperand cs = some id) : id.toNat ≤ 3 := by
  obtain ⟨k, hk, rfl⟩ := Option.map_eq_some_iff.mp h
  exact (Nat.mod_le ..).trans (Nat.le_of_lt_succ (nameOperand_lt hk))

theorem Instr.legal_of_modeless {i : Instr} (hi : i.wf = true) (hm : i.op.takesMode = false)
    (ht : i.op ≠ .testPattern) : i.Legal := ⟨hi, by simp [hm], fun h => absurd h ht⟩

theorem Instr.legal_of_modeOperand {i : Instr} {cs : List Char} {m : BitVec 3} (hi : i.wf = true)
    (hm : modeOperand cs = some m) (hfield : modeField (encode i) = m) (ht : i.op ≠ .testPattern) : i.Legal :=
  ⟨hi, fun _ => hfield ▸ modeOperand_lt hm, fun h => absurd h ht⟩

/-- The pixel of the pseudo-instructions SETPIX, CLRPIX and FLIPPIX (30_encoding.md R114). -/
theorem writePixel_legal {x y : Int} {m : BitVec 3} (hx : coordOk x = true) (hy : coordOk y = true) (hm : m.toNat < 5)
    (v : Bool) : (Instr.writePixel x y m v).Legal :=
  ⟨by simp [Instr.wf, hx, hy], fun _ => (modeField_pack ..).symm ▸ hm, nofun⟩

theorem assembleOp_legal {op : Op} {args : List (List Char)} {i : Instr} (h : assembleOp op args = some i) :
    i.Legal := by
  unfold assembleOp at h
  split at h
  all_goals
    simp only [Option.bind_eq_bind, Option.bind_eq_some_iff, Option.pure_def, Option.some.injEq, reduceCtorEq] at h
  · subst h; exact Instr.legal_of_modeless rfl rfl nofun
  · obtain ⟨x, hx, y, hy, m, hm, v, -, rfl⟩ := h
    exact writePixel_legal (coordOk_of_coordOperand hx) (coordOk_of_coordOperand hy) (modeOperand_lt hm) v
  · obtain ⟨x, hx, y, hy, rfl⟩ := h
    exact Instr.legal_of_modeless (by simp [Instr.wf, coordOk_of_coordOperand hx, coordOk_of_coordOperand hy]) rfl nofun
  · obtain ⟨b, -, rfl⟩ := h
    exact Instr.legal_of_modeless rfl rfl nofun
  case h_5 | h_6 | h_7 =>
    obtain ⟨x1, hx1, y1, hy1, x2, hx2, y2, hy2, m, hm, rfl⟩ := h
    refine Instr.legal_of_modeOperand ?_ hm (modeField_pack ..) nofun
    simp [Instr.wf, coordOk_of_coordOperand hx1, coordOk_of_coordOperand hy1, coordOk_of_coordOperand hx2,
      coordOk_of_coordOperand hy2]
  · obtain ⟨x, hx, y, hy, r, hr, m, hm, rfl⟩ := h
    refine Instr.legal_of_modeOperand ?_ hm (modeField_pack ..) nofun
    simp [Instr.wf, coordOk_of_coordOperand hx, coordOk_of_coordOperand hy, coordOk_of_coordOperand hr]
  · obtain ⟨x, hx, y, hy, code, -, g, -, m, hm, rfl⟩ := h
    refine Instr.legal_of_modeOperand ?_ hm (modeField_pack ..) nofun
    simp [Instr.wf, coordOk_of_coordOperand hx, coordOk_of_coordOperand hy]
  · obtain ⟨id, hid, rfl⟩ := h
    exact ⟨rfl, nofun, fun _ => (auxField_pack ..).symm ▸ patternOperand_le hid⟩
  · subst h; exact Instr.legal_of_modeless rfl rfl nofun
  · subst h; exact Instr.legal_of_modeless rfl rfl nofun

theorem assemblePseudo_legal {p : Pseudo} {args : List (List Char)} {i : Instr}
    (h : assemblePseudo p args = some (.command i)) : i.Legal := by
  unfold assemblePseudo at h
  split at h
  case h_1 | h_2 | h_3 =>
    simp only [Option.bind_eq_bind, Option.bind_eq_some_iff, Option.pure_def, Option.some.injEq,
      AsmItem.command.injEq] at h
    obtain ⟨x, hx, y, hy, rfl⟩ := h
    exact writePixel_legal (coordOk_of_coordOperand hx) (coordOk_of_coordOperand hy) (by decide) _
  case h_4 | h_5 => cases h; exact Instr.legal_of_modeless rfl rfl nofun
  case h_8 =>
    split at h
    · split at h <;> cases h
    · cases h
  all_goals cases h

/-- A line that stands for a command is one of R113's forms or one of R114's pseudo-instructions. -/
theorem assembleLine_command {line : List Char} {i : Instr} (h : assembleLine line = .ok (some (.command i))) :
    (∃ op args, assembleOp op args = some i) ∨ ∃ p args, assemblePseudo p args = some (.command i) := by
  unfold assembleLine at h
  dsimp only at h
  split at h
  · cases h
  · split at h
    · next op _ hop =>
      split at h
      · next j hj => cases h; exact .inl ⟨_, _, hj⟩
      · cases h
    · split at h
      · next j hj => cases h; exact .inr ⟨_, _, hj⟩
      · cases h
    · cases h

theorem assembleLine_legal {line : List Char} {i : Instr} (h : assembleLine line = .ok (some (.command i))) :
    i.Legal := by
  obtain ⟨op, args, hi⟩ | ⟨p, args, hi⟩ := assembleLine_command h
  · exact assembleOp_legal hi
  · exact assemblePseudo_legal hi

/-- The word that a line of text assembles to, where it stands for a command (30_encoding.md R113). -/
def assembledWord (line : List Char) : Option Word :=
  match assembleLine line with
  | .ok (some (.command i)) => some (encode i)
  | _ => none

theorem assembledWord_eq_some {line : List Char} {w : Word} : assembledWord line = some w ↔
    ∃ i, assembleLine line = .ok (some (.command i)) ∧ encode i = w := by
  unfold assembledWord
  split
  · next i hi => simp [hi]
  · next hno => simpa using fun i hi => absurd hi (hno i)

end Sys2Proof

/-! The statements about the assembler (30_encoding.md R113 to R115). -/

namespace Sys2Proof

/-- Settles O7: the assembler's operands pass every check but the glyph resource's. -/
theorem whatTheAssemblerYieldsIsEncodableAndLegal : Obligations.WhatTheAssemblerYieldsIsEncodableAndLegal :=
  fun _ _ h => ⟨(assembleLine_legal h).1, (assembleLine_legal h).verdict_cases⟩

/-- Settles O5: the assembler is run on each line, and what it yields is encodable, so its word decodes to it. -/
theorem workedEncodingsAgree : Obligations.WorkedEncodingsAgree := by
  refine ⟨fun row hrow => ?_, by decide +kernel, fun c => ⟨rfl, rfl⟩⟩
  have hword : assembledWord row.1.toList = some row.2 := by
    revert row
    decide +kernel
  obtain ⟨i, hline, henc⟩ := assembledWord_eq_some.mp hword
  exact ⟨i, hline, henc, decode_eq_ok_iff_encode.mpr ⟨(assembleLine_legal hline).1, henc⟩⟩

end Sys2Proof

/-! SUPPORT. The framebuffer bit by bit (40_pixel.md R131 to R136): each mask is its own bit, equal bits are equal
framebuffers, and what setting and blending one pixel does to them. -/

namespace Sys2Proof.Machine

theorem pixelMask_eq_cast (x : Int) : pixelMask x = ((0x80 >>> (x.toNat % 8) : Nat) : Byte) := by
  have key : ∀ p : Fin 8, 0x80#8 >>> (p : Nat) = ((0x80 >>> (p : Nat) : Nat) : Byte) := by decide
  exact key ⟨x.toNat % 8, Nat.mod_lt _ (by omega)⟩

theorem pixelMask_inj {x x' : Int} (h : pixelMask x' = pixelMask x) : x'.toNat % 8 = x.toNat % 8 := by
  have key : ∀ p q : Fin 8, 0x80#8 >>> (p : Nat) = 0x80#8 >>> (q : Nat) → p = q := by decide
  exact congrArg Fin.val
    (key ⟨x'.toNat % 8, Nat.mod_lt _ (by omega)⟩ ⟨x.toNat % 8, Nat.mod_lt _ (by omega)⟩ h)

/-- A canonical framebuffer is fixed by the bits of its bytes (log 9). -/
theorem Memory.ext_getLsbD {m m' : Memory} (hm : m.wf) (hm' : m'.wf)
    (h : ∀ a i, i < 8 → (m.read a).getLsbD i = (m'.read a).getLsbD i) : m = m' :=
  Memory.ext_read hm hm' fun a => BitVec.eq_of_getLsbD_eq (h a)

/-- Every bit after a pixel is set: the pixel's own is the new one, the others are as they were (40_pixel.md R136). -/
theorem getLsbD_read_putPixel (c : Config) {fb : Memory} (hfb : fb.wf) (x y : Int) (n : Bool) (a : Nat) {i : Nat}
    (hi : i < 8) : ((putPixel c fb x y n).read a).getLsbD i =
      if a = c.offset x y ∧ i = 7 - x.toNat % 8 then n else (fb.read a).getLsbD i := by
  by_cases ha : a = c.offset x y
  · simp only [ha, read_putPixel_offset hfb x y n i hi, true_and]
  · rw [read_putPixel_other c fb x y n ha, if_neg fun h => ha h.1]

/-- Only the last value that a pixel is set to counts. -/
theorem putPixel_putPixel_same (c : Config) {fb : Memory} (hfb : fb.wf) (x y : Int) (n n' : Bool) :
    putPixel c (putPixel c fb x y n) x y n' = putPixel c fb x y n' := by
  have hwf := putPixel_wf hfb c x y n
  refine Memory.ext_getLsbD (putPixel_wf hwf ..) (putPixel_wf hfb ..) fun a i hi => ?_
  simp only [getLsbD_read_putPixel c hwf x y n' a hi, getLsbD_read_putPixel c hfb x y _ a hi]
  split <;> rfl

/-- Setting a pixel to what it is restores the framebuffer. -/
theorem putPixel_pixelBit (c : Config) {fb : Memory} (hfb : fb.wf) (x y : Int) :
    putPixel c fb x y (pixelBit c fb x y) = fb := by
  refine Memory.ext_getLsbD (putPixel_wf hfb ..) hfb fun a i hi => ?_
  rw [getLsbD_read_putPixel c hfb x y _ a hi]
  split
  · next h => rw [h.1, h.2, pixelBit_eq_getLsbD]
  · rfl

/-- Distinct pixels are set in either order, in one byte or in two. -/
theorem putPixel_comm {c : Config} (hc : c.wf) {fb : Memory} (hfb : fb.wf) {x y x' y' : Int}
    (h : c.inRange x y = true) (h' : c.inRange x' y' = true) (hne : ¬(x' = x ∧ y' = y)) (n n' : Bool) :
    putPixel c (putPixel c fb x y n) x' y' n' = putPixel c (putPixel c fb x' y' n') x y n := by
  have hwf := putPixel_wf hfb c x y n
  have hwf' := putPixel_wf hfb c x' y' n'
  refine Memory.ext_getLsbD (putPixel_wf hwf ..) (putPixel_wf hwf' ..) fun a i hi => ?_
  simp only [getLsbD_read_putPixel c hwf x' y' n' a hi, getLsbD_read_putPixel c hwf' x y n a hi,
    getLsbD_read_putPixel c hfb _ _ _ a hi]
  split
  · next hb' =>
    rw [if_neg]
    rintro ⟨ho, hb⟩
    exact hne (Config.offset_bit_inj hc h' h (hb'.1.symm.trans ho) (by omega))
  · rfl

theorem pixopFb_of_inRange {c : Config} {x y : Int} (h : c.inRange x y = true) (fb : Memory) (m : Mode) (v : Bool) :
    pixopFb c fb x y m v = putPixel c fb x y (blend m (pixelBit c fb x y) v) := if_pos h

theorem pixopFb_of_not_inRange {c : Config} {x y : Int} (h : c.inRange x y = false) (fb : Memory) (m : Mode)
    (v : Bool) : pixopFb c fb x y m v = fb := if_neg (by simp [h])

/-- Two PIXOPs at one pixel set it once, to its bit blended twice. -/
theorem pixopFb_pixopFb {c : Config} {fb : Memory} (hfb : fb.wf) {x y : Int} (h : c.inRange x y = true)
    (m m' : Mode) (v v' : Bool) : pixopFb c (pixopFb c fb x y m v) x y m' v' =
      putPixel c fb x y (blend m' (blend m (pixelBit c fb x y) v) v') := by
  simp only [pixopFb_of_inRange h, pixelBit_putPixel_same hfb, putPixel_putPixel_same c hfb]

/-- PIXOPs at distinct in-range pixels commute: neither sees or sets the other's bit (40_pixel.md R141, item 7). -/
theorem pixopFb_comm_of_ne {c : Config} (hc : c.wf) {fb : Memory} (hfb : fb.wf) {x y x' y' : Int}
    (h : c.inRange x y = true) (h' : c.inRange x' y' = true) (hne : ¬(x' = x ∧ y' = y)) (m m' : Mode) (v v' : Bool) :
    pixopFb c (pixopFb c fb x y m v) x' y' m' v' = pixopFb c (pixopFb c fb x' y' m' v') x y m v := by
  have hne' : ¬(x = x' ∧ y = y') := fun heq => hne ⟨heq.1.symm, heq.2.symm⟩
  simp only [pixopFb_of_inRange h, pixopFb_of_inRange h', pixelBit_putPixel_other hc hfb _ h h' hne,
    pixelBit_putPixel_other hc hfb _ h' h hne']
  exact putPixel_comm hc hfb h h' hne _ _

/-! The laws of the blend (40_pixel.md R134, R141). -/

theorem blend_twice_restores {m : Mode} {v : Bool} (h : m = .toggle ∨ (m = .nor ∧ v = false)) (e : Bool) :
    blend m (blend m e v) v = e := by
  obtain rfl | ⟨rfl, rfl⟩ := h <;> simp [blend]

theorem blend_twice_eq_once {m : Mode} {v : Bool}
    (h : m = .normal ∨ m = .inverse ∨ m = .or ∨ (m = .nor ∧ v = true)) (e : Bool) :
    blend m (blend m e v) v = blend m e v := by
  obtain rfl | rfl | rfl | ⟨rfl, rfl⟩ := h <;> simp [blend]

theorem blend_comm {m m' : Mode} {v v' : Bool}
    (h : (m = .toggle ∧ m' = .toggle) ∨ (m = .nor ∧ m' = .nor ∧ v = true ∧ v' = true)) (e : Bool) :
    blend m' (blend m e v) v' = blend m (blend m' e v') v := by
  obtain ⟨rfl, rfl⟩ | ⟨rfl, rfl, rfl, rfl⟩ := h
  · exact Bool.xor_right_comm ..
  · simp [blend]

theorem blend_or_of_lit (v : Bool) : blend .or true v = true := rfl

theorem blend_nor_eq_true {e v : Bool} : blend .nor e v = true ↔ e = false ∧ v = false := by
  simp [blend]

end Sys2Proof.Machine

/-! SUPPORT. RDPIX in one equation, and the framebuffer after a list of FILLs (40_pixel.md R137, R140). -/

namespace Sys2Proof.Machine

theorem perform_rdpix (x y : Int) (s : State) : perform (.rdpix x y) s =
    .next { s with pix := s.cfg.inRange x y && pixelBit s.cfg s.fb x y, rdv := s.cfg.inRange x y } := by
  cases hr : s.cfg.inRange x y <;> simp [perform, rdpix, hr]

theorem read_fbAfterAll_fill (c : Config) {fb : Memory} (hfb : fb.wf) (offs : List Nat) (b : Byte) (a : Nat) :
    (fbAfterAll c fb (offs.map fun i => .fill i b)).read a = if a ∈ offs then b else fb.read a := by
  induction offs generalizing fb with
  | nil => rfl
  | cons i offs ih =>
    have hrest : fbAfterAll c fb ((i :: offs).map fun i => .fill i b) =
        fbAfterAll c (fb.write i b) (offs.map fun i => .fill i b) := rfl
    rw [hrest, ih (Memory.write_wf hfb i b)]
    by_cases ha : a = i
    · simp [ha, Memory.read_write_same hfb]
    · simp [ha, Memory.read_write_other fb ha]

end Sys2Proof.Machine

/-! SUPPORT. Commands that no check of 30_encoding.md R110 refuses, and READ_PIXEL's run with the DE alone at work
(40_pixel.md R139). -/

namespace Sys2Proof

theorem Mode.lt_of_ofField {m : BitVec 3} {mode : Mode} (h : Mode.ofField m = some mode) : m.toNat < 5 := by
  by_contra hge
  rw [Mode.ofField_eq_none (not_lt.mp hge)] at h
  cases h

/-- A legal command but GLYPH has the verdict Execute in every configuration. -/
theorem Instr.Legal.verdict_eq_execute {i : Instr} (h : i.Legal) (hg : i.op ≠ .glyph) (c : Config) :
    verdict c (encode i) = .execute i.op := by
  obtain hv | ⟨⟨x, y, code, g, mode, rfl⟩, -⟩ := h.verdict_cases c
  · exact hv
  · exact absurd rfl hg

theorem readPixel_legal {x y : Int} (hx : coordOk x = true) (hy : coordOk y = true) : (Instr.readPixel x y).Legal :=
  Instr.legal_of_modeless (by simp [Instr.wf, hx, hy]) rfl nofun

theorem clear_legal (b : Byte) : (Instr.clear b).Legal := Instr.legal_of_modeless rfl rfl nofun

end Sys2Proof

namespace Sys2Proof.Machine

/-- Where the DE alone can move, the step is the answer of the head of its list (10_state.md R54). -/
theorem step_eq_perform_of_drawing_alone {s : State} {op : MicroOp} {ops : List MicroOp} (hslot : s.slot = none)
    (hse : s.se = .idle) (hhost : s.host = []) (hops : s.deOps = op :: ops) :
    step s = perform op { (drawTurn s).2 with deOps := ops } := by
  refine step_of_only (a := .de) (deStep_eq_some.mpr ⟨op, ops, by simpa using hops, rfl⟩) fun b hb => ?_
  cases b with
  | port => exact agentStep_port_of_empty (by simpa using hslot)
  | de => exact absurd rfl hb
  | se => exact agentStep_se_of_idle (by simpa using hse)
  | host => exact agentStep_host_of_done (by simpa using hhost)

/-- A DE alone with one RDPIX leaves its result and is idle (10_state.md R54, 40_pixel.md R137). -/
theorem step_of_rdpix_alone {s : State} {x y : Int} (hslot : s.slot = none) (hse : s.se = .idle) (hhost : s.host = [])
    (hops : s.deOps = [.rdpix x y]) : ∃ sched n,
    step s = .next { s with deOps := [], pix := s.cfg.inRange x y && pixelBit s.cfg s.fb x y,
                            rdv := s.cfg.inRange x y, schedule := sched, turns := n } := by
  refine ⟨(drawTurn s).2.schedule, (drawTurn s).2.turns, ?_⟩
  rw [step_eq_perform_of_drawing_alone hslot hse hhost hops, drawTurn_eq, perform_rdpix]

/-- READ_PIXEL in a quiet state: one acceptance, then its RDPIX (40_pixel.md R139). -/
theorem readPixel_runs_to_its_end {s : State} {x y : Int} (hq : quiet s) (hi : (Instr.readPixel x y).Legal)
    (hs : s.slot = some (encode (.readPixel x y))) : ∃ sched n,
    runsTo 2 s { accept s with deOps := [], pix := s.cfg.inRange x y && pixelBit s.cfg s.fb x y,
                               rdv := s.cfg.inRange x y, schedule := sched, turns := n } := by
  obtain ⟨sched, n, haccept⟩ := step_of_legal_drawing hq hi.1 rfl hs (hi.verdict_eq_execute nofun s.cfg)
  obtain ⟨-, hse, hhost⟩ := hq
  obtain ⟨sched', n', hread⟩ := step_of_rdpix_alone
    (s := { accept s with deOps := [.rdpix x y], schedule := sched, turns := n }) rfl hse hhost rfl
  exact ⟨sched', n', runsTo_succ.mpr ⟨_, haccept, runsTo_succ.mpr ⟨_, hread, runsTo_zero rfl⟩⟩⟩

end Sys2Proof.Machine

/-! The statements about the framebuffer's pixels (40_pixel.md). -/

namespace Sys2Proof.Machine

/-- Settles O23: the mask gives x mod 8 back, and the offset the rest. -/
theorem distinctPixelsAreDistinctBits : Obligations.DistinctPixelsAreDistinctBits :=
  fun _ hc _ _ h => ⟨rfl, offset_lt hc h, pixelMask_eq_cast _,
    fun _ _ h' ho hm => Config.offset_bit_inj hc h' h ho (pixelMask_inj hm)⟩

/-- Settles O24: the table is computed, and what PIXOP does is said pixel by pixel and byte by byte. -/
theorem pixopChangesAtMostOneBit : Obligations.PixopChangesAtMostOneBit := by
  refine ⟨rfl, fun s x y m v hs => ⟨_, rfl, rfl, fun hr => pixopFb_of_not_inRange hr .., ?_, ?_⟩⟩
  · exact fun a ha => read_pixopFb_other _ _ _ _ _ _ ha
  · exact fun x' y' h' => pixelBit_pixopFb hs.cfgOk hs.fbOk x y m v h'

/-- Settles O25: PIX and RDV are those of RDPIX's one equation. -/
theorem rdpixReportsThePixel : Obligations.RdpixReportsThePixel := by
  intro s x y
  rw [perform_rdpix]
  exact ⟨fun h => by simp [h, pixelBit], fun h => by simp [h]⟩

/-- Settles O26: the byte is the one written, and no byte stands outside FB_BYTES. -/
theorem fillWritesOneByte : Obligations.FillWritesOneByte := by
  intro s k b hfb
  refine ⟨fun hk => ⟨_, if_pos hk, rfl, Memory.write_wf hfb k b, Memory.read_write_same hfb k b, ?_⟩, fun hk => ?_⟩
  · exact fun a ha => Memory.read_write_other _ ha b
  · exact if_neg (not_lt.mpr hk)

/-- Settles O27: two PIXOPs at one pixel are one bit blended twice. -/
theorem repeatedPixopsFollowTheirLaws : Obligations.RepeatedPixopsFollowTheirLaws := by
  intro c fb x y v hc hfb
  refine ⟨fun m hm => ?_, fun m hm => ?_, fun x' y' h' hlit => ?_, fun h hlit => ?_⟩
  · cases h : c.inRange x y with
    | false => simp only [pixopFb_of_not_inRange h]
    | true => rw [pixopFb_pixopFb hfb h, blend_twice_restores hm, putPixel_pixelBit c hfb]
  · cases h : c.inRange x y with
    | false => simp only [pixopFb_of_not_inRange h]
    | true => rw [pixopFb_pixopFb hfb h, blend_twice_eq_once hm, pixopFb_of_inRange h]
  · rw [pixelBit_pixopFb hc hfb _ _ _ _ h']
    split
    · next heq => rw [← heq.1, ← heq.2, hlit, blend_or_of_lit]
    · exact hlit
  · rw [pixelBit_pixopFb hc hfb _ _ _ _ h, if_pos ⟨rfl, rfl⟩] at hlit
    exact blend_nor_eq_true.mp hlit

/-- Settles O28: at distinct pixels the bits are distinct, at one pixel the blends commute. -/
theorem pixopsCommute : Obligations.PixopsCommute := by
  intro c fb x y x' y' m m' v v' hc hfb h h' hcases
  by_cases heq : x' = x ∧ y' = y
  · obtain ⟨rfl, rfl⟩ := heq
    rw [pixopFb_pixopFb hfb h, pixopFb_pixopFb hfb h, blend_comm (hcases.resolve_left (not_not.mpr ⟨rfl, rfl⟩))]
  · exact pixopFb_comm_of_ne hc hfb h h' heq m m' v v'

/-- Settles O15: no check refuses the command, and the idle DE takes its list. -/
theorem pixelCommandsStartTheirLists : Obligations.PixelCommandsStartTheirLists :=
  fun s hde => ⟨fun _ _ _ _ _ hm => (startDrawingIn_of_mode hm _ s).trans (startDrawing_of_idle hde _),
    fun _ _ => startDrawing_of_idle hde _, fun _ => startDrawing_of_idle hde _⟩

/-- Settles O37: the drawing runs to its end, and its list is one PIXOP. -/
theorem writePixelBlendsItsPixel : Obligations.WritePixelBlendsItsPixel := by
  intro s x y field v m hs hq hslot hx hy hm
  have hi := writePixel_legal hx hy (Mode.lt_of_ofField hm) v
  have hops : (Instr.writePixel x y field v).microOps s.cfg = [.pixop x y m v] := by
    simp [Instr.microOps, hm, writePixelOps]
  obtain ⟨t, hrun, hrest, hfb, -, -⟩ :=
    aDrawingCommandRunsToItsEnd s _ hs hq hi.1 rfl hslot (hi.verdict_eq_execute nofun s.cfg)
  rw [hops] at hrun hfb
  refine ⟨t, hrun, hrest, fun x' y' h' => ?_⟩
  rw [hfb]
  exact pixelBit_pixopFb hs.cfgOk hs.fbOk x y m v h'

/-- Settles O38: STATUS shows what RDPIX leaves, and nothing else of the block has changed. -/
theorem readPixelLeavesItsResultInStatus : Obligations.ReadPixelLeavesItsResultInStatus := by
  intro s x y _ hq hslot hx hy
  obtain ⟨sched, n, hrun⟩ := readPixel_runs_to_its_end hq (readPixel_legal hx hy) hslot
  obtain ⟨-, hse, hhost⟩ := hq
  refine ⟨_, hrun, atRest_of_quiet ⟨rfl, hse, hhost⟩ rfl, rfl, fun f => ?_, status_getLsbD _ 1, status_getLsbD _ 0⟩
  cases f <;> rfl

/-- Settles O40: the drawing runs to its end, and its list fills every offset below FB_BYTES. -/
theorem clearFillsTheWholeFramebuffer : Obligations.ClearFillsTheWholeFramebuffer := by
  intro s b hs hq hslot
  obtain ⟨t, hrun, hrest, hfb, -, -⟩ := aDrawingCommandRunsToItsEnd s _ hs hq rfl rfl hslot
    ((clear_legal b).verdict_eq_execute nofun s.cfg)
  have hlen : ((Instr.clear b).microOps s.cfg).length = s.cfg.fbBytes := by simp [Instr.microOps, clearOps]
  rw [hlen] at hrun
  refine ⟨t, hrun, hrest, fun a ha => ?_⟩
  rw [hfb]
  exact (read_fbAfterAll_fill s.cfg hs.fbOk _ b a).trans (if_pos (List.mem_range.mpr ha))

end Sys2Proof.Machine

/-! SUPPORT. LINE in closed form (41_primitives.md R162 to R164): the loops' decision variable is the rounding of the
minor coordinate, so the k-th pixel is k steps along the driving axis and the rounded share of the minor delta along the
other. Two LINEs of each direction make BOX. -/

namespace Sys2Proof.Machine

/-- k × minor / major rounded to the nearest, a half rounded up (41_primitives.md R164). -/
def roundedShare (major minor k : Nat) : Nat := (2 * k * minor + major) / (2 * major)

theorem roundedShare_of_small {major minor k : Nat} (h : 2 * k * minor = 0) : roundedShare major minor k = 0 := by
  rw [roundedShare, h, Nat.div_eq_zero_iff]
  omega

@[simp] theorem roundedShare_zero (major minor : Nat) : roundedShare major minor 0 = 0 :=
  roundedShare_of_small (by simp)

@[simp] theorem roundedShare_level (major k : Nat) : roundedShare major 0 k = 0 := roundedShare_of_small rfl

theorem roundedShare_self {major minor : Nat} (h : minor ≤ major) : roundedShare major minor major = minor := by
  obtain rfl | hpos := Nat.eq_zero_or_pos major
  · rw [Nat.le_zero.mp h, roundedShare_zero]
  · rw [roundedShare, Nat.mul_add_div (by omega), Nat.div_eq_of_lt (by omega), Nat.add_zero]

/-- The sign of the decision variable f says whether the rounded share grows (41_primitives.md R162). -/
theorem roundedShare_succ {major minor : Nat} (hpos : 0 < major) (h : minor ≤ major) (k : Nat) :
    roundedShare major minor (k + 1) = roundedShare major minor k +
      if (0 : Int) ≤ 2 * minor * (k + 1) - major - 2 * major * roundedShare major minor k then 1 else 0 := by
  have hdiv := Nat.div_add_mod (2 * k * minor + major) (2 * major)
  have hmod := Nat.mod_lt (2 * k * minor + major) (show 0 < 2 * major by omega)
  set rest := (2 * k * minor + major) % (2 * major)
  set share := roundedShare major minor k with hshare
  rw [← roundedShare, ← hshare] at hdiv
  have hnext : 2 * (k + 1) * minor + major = 2 * major * share + (rest + 2 * minor) := by linarith
  have hf : (2 * minor * (k + 1) - major - 2 * major * share : Int) = (rest + 2 * minor : Nat) - (2 * major : Nat) := by
    push_cast; push_cast [← @Nat.cast_inj Int] at hnext; linarith
  rw [roundedShare, hnext, Nat.mul_add_div (by omega), hf]
  split
  · next hge => rw [Nat.div_eq_of_lt_le (k := 1) (by omega) (by omega)]
  · next hlt => rw [Nat.div_eq_of_lt (by omega)]

/-- In the shallow branch the k-th round's decision variable is 2·dy·(k + 1) - dx - 2·dx·(rounded share), and the rounds
left plot the points that follow. -/
theorem shallowLoop_eq {dx dy : Nat} (h : dy ≤ dx) (sx sy x y : Int) (n k : Nat) (hn : n + k ≤ dx) :
    shallowLoop sx sy dx dy n (x + sx * k) (y + sy * roundedShare dx dy k)
        (2 * dy * (k + 1) - dx - 2 * dx * roundedShare dx dy k) =
      (List.range' (k + 1) n).map fun (j : Nat) => (x + sx * j, y + sy * roundedShare dx dy j) := by
  induction n generalizing k with
  | zero => rfl
  | succ n ih =>
    have hsucc := roundedShare_succ (by omega) h k
    have ih := ih (k + 1) (by omega)
    rw [List.range'_succ, List.map_cons, ← ih, shallowLoop, hsucc]
    split
    · push_cast; ring_nf
    · push_cast; ring_nf

/-- The steep branch is the shallow one with the axes exchanged. -/
theorem steepLoop_eq_map_swap (sx sy dx dy : Int) (n : Nat) (x y f : Int) :
    steepLoop sx sy dx dy n x y f = (shallowLoop sy sx dy dx n y x f).map Prod.swap := by
  induction n generalizing x y f with
  | zero => rfl
  | succ n ih => rw [steepLoop, shallowLoop, List.map_cons, ih]; rfl

/-- LINE's k-th point (41_primitives.md R162): k steps along the driving axis, the rounded share along the other. -/
def linePoint (x1 y1 x2 y2 : Int) (k : Nat) : Int × Int :=
  if (y2 - y1).natAbs < (x2 - x1).natAbs then
    (x1 + sign (x2 - x1) * k, y1 + sign (y2 - y1) * roundedShare (x2 - x1).natAbs (y2 - y1).natAbs k)
  else (x1 + sign (x2 - x1) * roundedShare (y2 - y1).natAbs (x2 - x1).natAbs k, y1 + sign (y2 - y1) * k)

theorem shallowLoop_from_start {dx dy : Nat} (h : dy ≤ dx) (sx sy x y : Int) :
    (x, y) :: shallowLoop sx sy dx dy dx x y (2 * dy - dx) =
      (List.range (dx + 1)).map fun (k : Nat) => (x + sx * k, y + sy * roundedShare dx dy k) := by
  have hrest := shallowLoop_eq h sx sy x y dx 0 le_rfl
  rw [List.range_eq_range', List.range'_succ, List.map_cons]
  simpa using hrest

/-- LINE's list in closed form. -/
theorem linePixels_eq (x1 y1 x2 y2 : Int) : linePixels x1 y1 x2 y2 =
    (List.range (max (x2 - x1).natAbs (y2 - y1).natAbs + 1)).map (linePoint x1 y1 x2 y2) := by
  by_cases hshallow : (y2 - y1).natAbs < (x2 - x1).natAbs
  · have hpoint : linePoint x1 y1 x2 y2 = _ := funext fun k => if_pos hshallow
    rw [linePixels, if_pos (Int.ofNat_lt.mpr hshallow), max_eq_left hshallow.le, hpoint]
    exact shallowLoop_from_start hshallow.le ..
  · have hsteep := not_lt.mp hshallow
    have hpoint : linePoint x1 y1 x2 y2 = _ := funext fun k => if_neg hshallow
    have hswap := congrArg (List.map Prod.swap)
      (shallowLoop_from_start hsteep (sign (y2 - y1)) (sign (x2 - x1)) y1 x1)
    rw [linePixels, if_neg (mt Int.ofNat_lt.mp hshallow), max_eq_right hsteep, hpoint, steepLoop_eq_map_swap]
    rw [List.map_map] at hswap
    exact hswap

/-! What follows from the closed form (41_primitives.md R163). -/

theorem length_linePixels (x1 y1 x2 y2 : Int) :
    (linePixels x1 y1 x2 y2).length = max (x2 - x1).natAbs (y2 - y1).natAbs + 1 := by simp [linePixels_eq]

theorem getElem?_linePixels {x1 y1 x2 y2 : Int} {k : Nat} {p : Int × Int} : (linePixels x1 y1 x2 y2)[k]? = some p ↔
    k ≤ max (x2 - x1).natAbs (y2 - y1).natAbs ∧ linePoint x1 y1 x2 y2 k = p := by
  simp [linePixels_eq, List.getElem?_eq_some_iff, Order.lt_add_one_iff]

theorem sign_mul_natAbs (d : Int) : sign d * d.natAbs = d := by unfold sign; split <;> omega

theorem natAbs_sign_mul (d e : Int) : (sign d * e).natAbs = e.natAbs := by unfold sign; split <;> omega

theorem sign_sub (a b : Int) : sign (b - a) = if a ≤ b then 1 else -1 := by simp [sign]

theorem linePoint_last (x1 y1 x2 y2 : Int) :
    linePoint x1 y1 x2 y2 (max (x2 - x1).natAbs (y2 - y1).natAbs) = (x2, y2) := by
  unfold linePoint
  split
  · next h => simp only [max_eq_left h.le, roundedShare_self h.le, sign_mul_natAbs]; ring_nf
  · next h =>
    simp only [max_eq_right (not_lt.mp h), roundedShare_self (not_lt.mp h), sign_mul_natAbs]; ring_nf

/-- No two points of a line agree along its driving axis. -/
theorem linePoint_injective (x1 y1 x2 y2 : Int) : Function.Injective (linePoint x1 y1 x2 y2) := by
  have hsign : ∀ d : Int, sign d ≠ 0 := fun d => by unfold sign; split <;> decide
  intro j k h
  unfold linePoint at h
  split at h
  · simpa [hsign] using congrArg Prod.fst h
  · simpa [hsign] using congrArg Prod.snd h

theorem nodup_linePixels (x1 y1 x2 y2 : Int) : (linePixels x1 y1 x2 y2).Nodup := by
  rw [linePixels_eq]
  exact List.nodup_range.map (linePoint_injective ..)

/-- A step moves a coordinate by sign × 0 or sign × 1. -/
theorem natAbs_axis_step {n n' : Nat} (h : n' = n ∨ n' = n + 1) (a d : Int) :
    (a + sign d * n' - (a + sign d * n)).natAbs ≤ 1 := by
  rw [add_sub_add_left_eq_sub, ← mul_sub, natAbs_sign_mul]
  omega

theorem roundedShare_step {major minor : Nat} (h : minor ≤ major) (k : Nat) :
    roundedShare major minor (k + 1) = roundedShare major minor k ∨
      roundedShare major minor (k + 1) = roundedShare major minor k + 1 := by
  obtain rfl | hpos := Nat.eq_zero_or_pos major
  · simp [Nat.le_zero.mp h]
  · rw [roundedShare_succ hpos h]
    split <;> simp

theorem linePoint_step (x1 y1 x2 y2 : Int) (k : Nat) :
    ((linePoint x1 y1 x2 y2 (k + 1)).1 - (linePoint x1 y1 x2 y2 k).1).natAbs ≤ 1 ∧
      ((linePoint x1 y1 x2 y2 (k + 1)).2 - (linePoint x1 y1 x2 y2 k).2).natAbs ≤ 1 := by
  unfold linePoint
  split
  · next h => exact ⟨natAbs_axis_step (.inr rfl) .., natAbs_axis_step (roundedShare_step h.le k) ..⟩
  · next h => exact ⟨natAbs_axis_step (roundedShare_step (not_lt.mp h) k) .., natAbs_axis_step (.inr rfl) ..⟩

/-! A horizontal or vertical line plots each pixel between its ends, so BOX plots its four sides (41_primitives.md R165,
R166). -/

theorem mem_linePixels {x1 y1 x2 y2 : Int} {p : Int × Int} : p ∈ linePixels x1 y1 x2 y2 ↔
    ∃ k ≤ max (x2 - x1).natAbs (y2 - y1).natAbs, linePoint x1 y1 x2 y2 k = p := by
  simp only [List.mem_iff_getElem?, getElem?_linePixels]

theorem exists_axis_steps {a b x : Int} :
    (∃ k ≤ (b - a).natAbs, a + sign (b - a) * (k : Nat) = x) ↔ min a b ≤ x ∧ x ≤ max a b := by
  unfold sign
  constructor
  · rintro ⟨k, hk, rfl⟩
    split <;> omega
  · intro hx
    refine ⟨(x - a).natAbs, by omega, ?_⟩
    split <;> omega

theorem mem_linePixels_horizontal {x1 x2 y0 x y : Int} :
    (x, y) ∈ linePixels x1 y0 x2 y0 ↔ (min x1 x2 ≤ x ∧ x ≤ max x1 x2) ∧ y0 = y := by
  have hpoint : ∀ k ≤ (x2 - x1).natAbs, linePoint x1 y0 x2 y0 k = (x1 + sign (x2 - x1) * k, y0) := by
    intro k hk
    unfold linePoint
    split
    · simp
    · have hk0 : k = 0 := by omega
      simp [hk0]
  rw [mem_linePixels, ← exists_axis_steps, sub_self, Int.natAbs_zero, Nat.max_zero]
  constructor
  · rintro ⟨k, hk, hp⟩
    rw [hpoint k hk, Prod.mk.injEq] at hp
    exact ⟨⟨k, hk, hp.1⟩, hp.2⟩
  · rintro ⟨⟨k, hk, rfl⟩, rfl⟩
    exact ⟨k, hk, hpoint k hk⟩

theorem mem_linePixels_vertical {x0 y1 y2 x y : Int} :
    (x, y) ∈ linePixels x0 y1 x0 y2 ↔ x0 = x ∧ min y1 y2 ≤ y ∧ y ≤ max y1 y2 := by
  have hpoint : ∀ k, linePoint x0 y1 x0 y2 k = (x0, y1 + sign (y2 - y1) * k) := by simp [linePoint]
  simp only [mem_linePixels, ← exists_axis_steps, sub_self, Int.natAbs_zero, Nat.zero_max, hpoint, Prod.mk.injEq]
  tauto

/-- The four sides at one pixel, each once. -/
theorem count_boxPixels (x1 y1 x2 y2 x y : Int) : (boxPixels x1 y1 x2 y2).count (x, y) =
    (if (min x1 x2 ≤ x ∧ x ≤ max x1 x2) ∧ min y1 y2 = y then 1 else 0) +
    (if max x1 x2 = x ∧ min y1 y2 ≤ y ∧ y ≤ max y1 y2 then 1 else 0) +
    (if (min x1 x2 ≤ x ∧ x ≤ max x1 x2) ∧ max y1 y2 = y then 1 else 0) +
    (if min x1 x2 = x ∧ min y1 y2 ≤ y ∧ y ≤ max y1 y2 then 1 else 0) := by
  simp only [boxPixels, List.count_append, (nodup_linePixels ..).count, mem_linePixels_horizontal,
    mem_linePixels_vertical, min_eq_left min_le_max, max_eq_right min_le_max, min_eq_right min_le_max,
    max_eq_left min_le_max]

/-- How many of an interval's two ends a number is. -/
theorem ends_eq (a b z : Int) : ((if min a b = z then 1 else 0) + if max a b = z then 1 else 0 : Nat) =
    if z = a ∨ z = b then (if a = b then 2 else 1) else 0 := by
  split_ifs <;> omega

theorem count_boxPixels_inside {x1 y1 x2 y2 x y : Int} (hx : min x1 x2 ≤ x ∧ x ≤ max x1 x2)
    (hy : min y1 y2 ≤ y ∧ y ≤ max y1 y2) : (boxPixels x1 y1 x2 y2).count (x, y) =
      (if x = x1 ∨ x = x2 then (if x1 = x2 then 2 else 1) else 0) +
        (if y = y1 ∨ y = y2 then (if y1 = y2 then 2 else 1) else 0) := by
  simp only [count_boxPixels, hx, hy, and_self, and_true, true_and, ← ends_eq]
  omega

theorem count_boxPixels_outside {x1 y1 x2 y2 x y : Int}
    (h : ¬((min x1 x2 ≤ x ∧ x ≤ max x1 x2) ∧ min y1 y2 ≤ y ∧ y ≤ max y1 y2)) :
    (boxPixels x1 y1 x2 y2).count (x, y) = 0 := by
  rw [count_boxPixels, if_neg (by omega), if_neg (by omega), if_neg (by omega), if_neg (by omega)]

/-- The border's counts added axis by axis, where an axis without extent has every pixel at both its ends. -/
theorem border_count_eq {xEnd yEnd noWidth noHeight : Prop} [Decidable xEnd] [Decidable yEnd] [Decidable noWidth]
    [Decidable noHeight] (hx : noWidth → xEnd) (hy : noHeight → yEnd) :
    (if xEnd then (if noWidth then 2 else 1) else 0) + (if yEnd then (if noHeight then 2 else 1) else 0) =
      if ¬(xEnd ∨ yEnd) then 0 else if noWidth ∧ noHeight then 4
      else if noWidth ∨ noHeight then (if xEnd ∧ yEnd then 3 else 2) else if xEnd ∧ yEnd then 2 else 1 := by
  by_cases noWidth <;> by_cases noHeight <;> by_cases xEnd <;> by_cases yEnd <;> simp_all

end Sys2Proof.Machine

/-! SUPPORT. FILLED_BOX, GLYPH and TEST_PATTERN plot a rectangle row by row, each pixel once (41_primitives.md R167,
R174, R177). -/

namespace Sys2Proof.Machine

/-- The pixels of a `w` × `h` rectangle with its top left corner at (x, y), row by row. -/
def cellPixels (x y : Int) (w h : Nat) : List (Int × Int) :=
  (List.range h).flatMap fun (row : Nat) => (List.range w).map fun (col : Nat) => (x + (col : Int), y + (row : Int))

theorem length_cellPixels (x y : Int) (w h : Nat) : (cellPixels x y w h).length = h * w := by
  simp [cellPixels, List.length_flatMap]

theorem mem_cellPixels {x y x' y' : Int} {w h : Nat} :
    (x', y') ∈ cellPixels x y w h ↔ x ≤ x' ∧ x' < x + w ∧ y ≤ y' ∧ y' < y + h := by
  simp only [cellPixels, List.mem_flatMap, List.mem_map, List.mem_range, Prod.mk.injEq]
  constructor
  · rintro ⟨row, hrow, col, hcol, rfl, rfl⟩
    omega
  · rintro ⟨hx, hxw, hy, hyh⟩
    exact ⟨(y' - y).toNat, by omega, (x' - x).toNat, by omega, by omega, by omega⟩

theorem nodup_cellPixels (x y : Int) (w h : Nat) : (cellPixels x y w h).Nodup := by
  refine List.nodup_flatMap.mpr ⟨fun row _ => List.nodup_range.map fun col col' hcol => ?_, ?_⟩
  · simpa using congrArg Prod.fst hcol
  · refine List.nodup_range.imp fun {row row'} hne => ?_
    rw [Function.onFun, List.disjoint_left]
    intro p hp hp'
    obtain ⟨col, -, rfl⟩ := List.mem_map.mp hp
    obtain ⟨col', -, heq⟩ := List.mem_map.mp hp'
    exact hne (by simpa using (congrArg Prod.snd heq).symm)

theorem intRange_eq (a b : Int) : intRange a b = (List.range (b - a + 1).toNat).map fun (k : Nat) => a + (k : Int) := by
  simp [intRange, List.map_eq_flatMap, List.flatMap_assoc]

theorem filledBoxPixels_eq (x1 y1 x2 y2 : Int) : filledBoxPixels x1 y1 x2 y2 =
    cellPixels (min x1 x2) (min y1 y2) (max x1 x2 - min x1 x2 + 1).toNat (max y1 y2 - min y1 y2 + 1).toNat := by
  simp only [filledBoxPixels, intRange_eq, cellPixels, List.flatMap_map, List.map_map, Function.comp_def]

theorem nodup_filledBoxPixels (x1 y1 x2 y2 : Int) : (filledBoxPixels x1 y1 x2 y2).Nodup := by
  rw [filledBoxPixels_eq]; exact nodup_cellPixels ..

theorem mem_filledBoxPixels {x1 y1 x2 y2 x y : Int} : (x, y) ∈ filledBoxPixels x1 y1 x2 y2 ↔
    min x1 x2 ≤ x ∧ x ≤ max x1 x2 ∧ min y1 y2 ≤ y ∧ y ≤ max y1 y2 := by
  rw [filledBoxPixels_eq, mem_cellPixels]
  omega

end Sys2Proof.Machine

/-! SUPPORT. CIRCLE in closed form (41_primitives.md R168 to R172): the loop runs through the octant's pixels that lie
nearest to the circle, and PLOT8 plots the eight images of each. -/

namespace Sys2Proof.Machine

/-- The offset with shorter side a and longer side b lies nearest to the circle of radius r along the longer one:
(b - 1/2)² < r² - a² + 1/4 ≤ (b + 1/2)². -/
def NearestToCircle (r a b : Int) : Prop := a * a + b * b - b < r * r ∧ r * r ≤ a * a + b * b + b

/-- An offset's two sides, whichever is the shorter. -/
theorem sides_eq_iff {a b dx dy : Int} (hab : a ≤ b) : min |dx| |dy| = a ∧ max |dx| |dy| = b ↔
    |dx| = a ∧ |dy| = b ∨ |dx| = b ∧ |dy| = a := by
  omega

theorem mem_plot8 {xc yc a b dx dy : Int} (ha : 0 ≤ a) (hab : a ≤ b) (hb : 0 < b) :
    (xc + dx, yc + dy) ∈ plot8 xc yc a b ↔ min |dx| |dy| = a ∧ max |dx| |dy| = b := by
  rw [sides_eq_iff hab, abs_eq ha, abs_eq hb.le, abs_eq ha, abs_eq hb.le]
  unfold plot8
  split_ifs <;>
    simp only [List.mem_cons, Prod.mk.injEq, List.not_mem_nil, or_false, sub_eq_add_neg, add_right_inj,
      add_eq_left]
  · omega
  · omega
  · simp only [or_and_right, and_or_left, or_assoc, or_comm, or_left_comm]
  · omega

theorem nodup_plot8 {xc yc a b : Int} (ha : 0 ≤ a) (hb : 0 < b) : (plot8 xc yc a b).Nodup := by
  unfold plot8
  split_ifs <;> simp <;> omega

theorem NearestToCircle.pos {r a b : Int} (h : NearestToCircle r a b) : 0 < b := by
  obtain ⟨hlow, hhigh⟩ := h
  linarith

/-- At one shorter side only one longer side is nearest. -/
theorem NearestToCircle.unique {r a b b' : Int} (h : NearestToCircle r a b) (h' : NearestToCircle r a b') : b = b' := by
  have hb := h.pos
  have hb' := h'.pos
  obtain ⟨hlow, hhigh⟩ := h
  obtain ⟨hlow', hhigh'⟩ := h'
  obtain hlt | heq | hgt := lt_trichotomy b b'
  · nlinarith
  · exact heq
  · nlinarith

/-- A circle that passes below (c, c) meets no pixel of the octant from column c on. -/
theorem not_nearestToCircle_of_diagonal {r c a b : Int} (hc : 0 < c) (hca : c ≤ a) (hab : a ≤ b)
    (hr : r * r ≤ 2 * (c * c) - c) : ¬NearestToCircle r a b := by
  rintro ⟨hlow, -⟩
  have hside : a * a - a ≤ b * b - b := by nlinarith
  have hcolumn : 2 * (c * c) - c ≤ 2 * (a * a) - a := by nlinarith
  linarith

/-- The list plots, once each, the images of the octant's pixels from column `k` on, and nothing else. -/
def PlotsOctantFrom (xc yc r k : Int) (pixels : List (Int × Int)) : Prop :=
  pixels.Nodup ∧ ∀ dx dy : Int, (xc + dx, yc + dy) ∈ pixels ↔
    k ≤ min |dx| |dy| ∧ NearestToCircle r (min |dx| |dy|) (max |dx| |dy|)

theorem plotsOctantFrom_nil (xc yc : Int) {r c : Int} (hc : 0 < c) (hr : r * r ≤ 2 * (c * c) - c) :
    PlotsOctantFrom xc yc r c [] := by
  refine ⟨.nil, fun dx dy => iff_of_false List.not_mem_nil ?_⟩
  rintro ⟨hmin, hnear⟩
  exact not_nearestToCircle_of_diagonal hc hmin min_le_max hr hnear

/-- PLOT8 of a column's pixel adds that column. -/
theorem PlotsOctantFrom.plot8_append {xc yc r x y : Int} {pixels : List (Int × Int)} (hx : 0 ≤ x) (hxy : x ≤ y)
    (hnear : NearestToCircle r x y) (h : PlotsOctantFrom xc yc r (x + 1) pixels) :
    PlotsOctantFrom xc yc r x (plot8 xc yc x y ++ pixels) := by
  obtain ⟨hnodup, hmem⟩ := h
  have hy := hnear.pos
  constructor
  · refine List.nodup_append'.mpr ⟨nodup_plot8 hx hy, hnodup, fun p hp hp' => ?_⟩
    obtain ⟨dx, dy, rfl⟩ : ∃ dx dy, p = (xc + dx, yc + dy) := ⟨p.1 - xc, p.2 - yc, by simp⟩
    obtain ⟨hmin, -⟩ := (mem_plot8 hx hxy hy).mp hp
    obtain ⟨hnext, -⟩ := (hmem dx dy).mp hp'
    omega
  · intro dx dy
    rw [List.mem_append, mem_plot8 hx hxy hy, hmem]
    constructor
    · rintro (⟨hmin, hmax⟩ | ⟨hnext, hnear'⟩)
      · rw [hmin, hmax]; exact ⟨le_rfl, hnear⟩
      · exact ⟨by omega, hnear'⟩
    · rintro ⟨hle, hnear'⟩
      obtain heq | hlt := hle.eq_or_lt
      · rw [← heq] at hnear' ⊢
        exact .inl ⟨rfl, hnear'.unique hnear⟩
      · exact .inr ⟨hlt, hnear'⟩

/-- The loop's next y (41_primitives.md R170). -/
def octantY (y p : Int) : Int := if p < 0 then y else y - 1

theorem octantY_le (y p : Int) : octantY y p ≤ y := by unfold octantY; split <;> omega

/-- The decision variable at (x, y): negative where (x + 1, y) is still nearest (41_primitives.md R170). -/
def octantP (r x y : Int) : Int := (x + 1) * (x + 1) + y * y - y - r * r

theorem circleLoop_succ {xc yc r x y : Int} (hxy : x < y) (n : Nat) :
    circleLoop xc yc (n + 1) x y (octantP r x y) =
      plot8 xc yc (x + 1) (octantY y (octantP r x y)) ++
        circleLoop xc yc n (x + 1) (octantY y (octantP r x y)) (octantP r (x + 1) (octantY y (octantP r x y))) := by
  have hnext : octantP r (x + 1) (octantY y (octantP r x y)) = if octantP r x y < 0 then octantP r x y + 2 * (x + 1) + 1
      else octantP r x y + 2 * (x + 1 - octantY y (octantP r x y)) + 1 := by
    unfold octantY
    split <;> simp only [octantP] <;> ring
  rw [circleLoop, if_pos hxy, hnext]
  rfl

theorem circleLoop_of_le {xc yc x y : Int} (h : y ≤ x) (n : Nat) (p : Int) : circleLoop xc yc n x y p = [] := by
  cases n with
  | zero => rfl
  | succ n => rw [circleLoop, if_neg (not_lt.mpr h)]

/-- The octant ends at a pixel on the diagonal. -/
theorem circleLoop_plotsOctant_diagonal (xc yc : Int) {r x : Int} (hx : 0 ≤ x) (hnear : NearestToCircle r x x) (n : Nat)
    (p : Int) : PlotsOctantFrom xc yc r (x + 1) (circleLoop xc yc n x x p) := by
  obtain ⟨-, hhigh⟩ := hnear
  rw [circleLoop_of_le le_rfl]
  exact plotsOctantFrom_nil xc yc (by omega) (by linarith)

/-- The loop's next pixel is the nearest one, or the loop has crossed the diagonal and the octant ends. -/
theorem nearestToCircle_octantY {r x y : Int} (hx : 0 ≤ x) (hxy : x < y) (h : NearestToCircle r x y) :
    (x + 1 ≤ octantY y (octantP r x y) ∧ NearestToCircle r (x + 1) (octantY y (octantP r x y))) ∨
      octantY y (octantP r x y) = x ∧ r * r ≤ 2 * ((x + 1) * (x + 1)) - (x + 1) := by
  obtain ⟨hlow, hhigh⟩ := h
  unfold octantY
  split
  · next hp =>
    unfold octantP at hp
    exact .inl ⟨hxy, by linarith, by linarith⟩
  · next hp =>
    unfold octantP at hp
    obtain hdiag | hlt : y = x + 1 ∨ x + 1 < y := by omega
    · subst hdiag
      exact .inr ⟨by omega, by linarith⟩
    · exact .inl ⟨by omega, by linarith, by linarith⟩

/-- By induction on the rounds left: each plots the next column, until the diagonal. -/
theorem circleLoop_plotsOctant (xc yc : Int) {r x y : Int} {n : Nat} (hx : 0 ≤ x) (hxy : x ≤ y) (hn : y - x ≤ n)
    (hnear : NearestToCircle r x y) : PlotsOctantFrom xc yc r (x + 1) (circleLoop xc yc n x y (octantP r x y)) := by
  induction n generalizing x y with
  | zero =>
    obtain rfl : x = y := by omega
    exact circleLoop_plotsOctant_diagonal xc yc hx hnear 0 _
  | succ n ih =>
    obtain rfl | hlt := hxy.eq_or_lt
    · exact circleLoop_plotsOctant_diagonal xc yc hx hnear _ _
    · rw [circleLoop_succ hlt]
      obtain ⟨hle, hnext⟩ | ⟨hcross, hr⟩ := nearestToCircle_octantY hx hlt hnear
      · have hshorter := octantY_le y (octantP r x y)
        exact (ih (by omega) hle (by omega) hnext).plot8_append (by omega) hle hnext
      · rw [hcross, circleLoop_of_le (by omega), plot8, if_neg (by omega), if_neg (by omega), if_neg (by omega)]
        exact plotsOctantFrom_nil xc yc (by omega) hr

theorem circlePixels_of_pos {r : Int} (hr : 0 < r) (xc yc : Int) :
    circlePixels xc yc r = plot8 xc yc 0 r ++ circleLoop xc yc r.toNat 0 r (1 - r) := by
  rw [circlePixels, if_neg (by omega), if_neg (by omega)]

theorem circlePixels_of_neg {r : Int} (hr : r < 0) (xc yc : Int) : circlePixels xc yc r = [] := if_pos hr

theorem circlePixels_zero (xc yc : Int) : circlePixels xc yc 0 = [(xc, yc)] := rfl

/-- At a positive radius CIRCLE plots, once each, the images of all of the octant's pixels. -/
theorem circlePixels_plotsOctant (xc yc : Int) {r : Int} (hr : 0 < r) :
    PlotsOctantFrom xc yc r 0 (circlePixels xc yc r) := by
  have hnear : NearestToCircle r 0 r := ⟨by linarith, by linarith⟩
  have hstart : 1 - r = octantP r 0 r := by unfold octantP; ring
  rw [circlePixels_of_pos hr, hstart]
  exact (circleLoop_plotsOctant xc yc le_rfl hr.le (by omega) hnear).plot8_append le_rfl hr.le hnear

theorem mem_circlePixels {xc yc r dx dy : Int} (hr : 0 < r) : (xc + dx, yc + dy) ∈ circlePixels xc yc r ↔
    NearestToCircle r (min |dx| |dy|) (max |dx| |dy|) := by
  obtain ⟨-, hmem⟩ := circlePixels_plotsOctant xc yc hr
  rw [hmem, and_iff_right (by positivity)]

theorem nodup_circlePixels (xc yc r : Int) : (circlePixels xc yc r).Nodup := by
  obtain hneg | rfl | hpos := lt_trichotomy r 0
  · rw [circlePixels_of_neg hneg]; exact .nil
  · exact List.nodup_singleton _
  · exact (circlePixels_plotsOctant xc yc hpos).1

end Sys2Proof.Machine

/-! SUPPORT. What a list of PIXOPs makes of each pixel (41_primitives.md R160): each drawing's list plots pixels in one
mode, the bit a function of the place, so a pixel is blended as often as the list plots it. -/

namespace Sys2Proof.Machine

/-- One PIXOP for each pixel, its bit given by the place. -/
def plotOps (pixels : List (Int × Int)) (mode : Mode) (bit : Int × Int → Bool) : List MicroOp :=
  pixels.map fun p => .pixop p.1 p.2 mode (bit p)

theorem length_plotOps (pixels : List (Int × Int)) (mode : Mode) (bit : Int × Int → Bool) :
    (plotOps pixels mode bit).length = pixels.length := List.length_map _

theorem fbAfterAll_plotOps_cons (c : Config) (fb : Memory) (p : Int × Int) (pixels : List (Int × Int)) (m : Mode)
    (bit : Int × Int → Bool) : fbAfterAll c fb (plotOps (p :: pixels) m bit) =
      fbAfterAll c (pixopFb c fb p.1 p.2 m (bit p)) (plotOps pixels m bit) := rfl

/-- Each pixel is blended as often as it is plotted. -/
theorem pixelBit_fbAfterAll_plotOps {c : Config} (hc : c.wf) {fb : Memory} (hfb : fb.wf) (pixels : List (Int × Int))
    (m : Mode) (bit : Int × Int → Bool) {x y : Int} (h : c.inRange x y = true) :
    pixelBit c (fbAfterAll c fb (plotOps pixels m bit)) x y =
      (fun e => blend m e (bit (x, y)))^[pixels.count (x, y)] (pixelBit c fb x y) := by
  induction pixels generalizing fb with
  | nil => rfl
  | cons p pixels ih =>
    rw [fbAfterAll_plotOps_cons, ih (pixopFb_wf hfb ..), pixelBit_pixopFb hc hfb _ _ _ _ h]
    by_cases hp : p = (x, y)
    · subst hp
      rw [if_pos ⟨rfl, rfl⟩, List.count_cons_self, Function.iterate_succ_apply]
    · rw [if_neg fun heq => hp (Prod.ext heq.1.symm heq.2.symm), List.count_cons_of_ne hp]

/-- A legal plotting command in a quiet state runs to its end, each pixel blended as often as it is plotted. -/
theorem plotting_runs_to_its_end {s : State} {i : Instr} {pixels : List (Int × Int)} {m : Mode}
    {bit : Int × Int → Bool} (hs : s.Inv) (hq : quiet s) (hi : i.wf = true) (hd : i.op.isDrawing = true)
    (hslot : s.slot = some (encode i)) (hv : verdict s.cfg (encode i) = .execute i.op)
    (hops : i.microOps s.cfg = plotOps pixels m bit) : ∃ t, runsTo (1 + pixels.length) s t ∧ atRest t ∧
      ∀ x y, s.cfg.inRange x y = true → pixelBit s.cfg t.fb x y =
        (fun e => blend m e (bit (x, y)))^[pixels.count (x, y)] (pixelBit s.cfg s.fb x y) := by
  obtain ⟨t, hrun, hrest, hfb, -, -⟩ := aDrawingCommandRunsToItsEnd s i hs hq hi hd hslot hv
  rw [hops, length_plotOps] at hrun
  refine ⟨t, hrun, hrest, fun x y h => ?_⟩
  rw [hfb, hops]
  exact pixelBit_fbAfterAll_plotOps hs.cfgOk hs.fbOk pixels m bit h

/-- Where the list has no repetition, each of its pixels is blended once and every other is as before. -/
theorem plotting_once_runs_to_its_end {s : State} {i : Instr} {pixels : List (Int × Int)} {m : Mode}
    {bit : Int × Int → Bool} (hs : s.Inv) (hq : quiet s) (hi : i.wf = true) (hd : i.op.isDrawing = true)
    (hslot : s.slot = some (encode i)) (hv : verdict s.cfg (encode i) = .execute i.op)
    (hops : i.microOps s.cfg = plotOps pixels m bit) (hnodup : pixels.Nodup) :
    ∃ t, runsTo (1 + pixels.length) s t ∧ atRest t ∧ ∀ x y, s.cfg.inRange x y = true → pixelBit s.cfg t.fb x y =
      if (x, y) ∈ pixels then blend m (pixelBit s.cfg s.fb x y) (bit (x, y)) else pixelBit s.cfg s.fb x y := by
  obtain ⟨t, hrun, hrest, hbit⟩ := plotting_runs_to_its_end hs hq hi hd hslot hv hops
  refine ⟨t, hrun, hrest, fun x y h => ?_⟩
  rw [hbit x y h, hnodup.count]
  split <;> rfl

end Sys2Proof.Machine

/-! SUPPORT. The drawing primitives' commands (41_primitives.md): none that is well formed with defined operands is
refused, an idle DE takes its list, and that list is a plot. -/

namespace Sys2Proof

open Machine

theorem Instr.legal_of_mode {i : Instr} {field : BitVec 3} {m : Mode} (hi : i.wf = true)
    (hm : Mode.ofField field = some m) (hfield : modeField (encode i) = field) (ht : i.op ≠ .testPattern) : i.Legal :=
  ⟨hi, fun _ => hfield ▸ Mode.lt_of_ofField hm, fun h => absurd h ht⟩

theorem testPattern_legal {id : Byte} {p : Pattern} (h : Pattern.ofId id = some p) : (Instr.testPattern id).Legal := by
  refine ⟨rfl, nofun, fun _ => not_lt.mp fun hlt => ?_⟩
  rw [encode, auxField_pack] at hlt
  rw [Pattern.ofId_eq_none hlt] at h
  cases h

/-- A glyph that the resource holds passes check 5 too (30_encoding.md R110). -/
theorem verdict_glyph {c : Config} {x y : Int} {code : Byte} {g : Geometry} {field : BitVec 3} {m : Mode}
    {bm : List (List Bool)} (hm : Mode.ofField field = some m) (hbm : c.glyph g code = some bm) :
    verdict c (encode (.glyph x y code g field)) = .execute .glyph := by
  have hlt := Mode.lt_of_ofField hm
  rw [verdict_encode, if_neg, if_neg, if_neg]
  · rfl
  · simp [encode, vField_pack, auxField_pack, Geometry.ofBit_toBit, hbm]
  · exact fun h => nomatch h.1
  · rw [encode, modeField_pack]
    exact fun h => absurd hlt (not_lt.mpr h.2)

end Sys2Proof

namespace Sys2Proof.Machine

theorem exec_glyph_of_present {s : State} {code : Byte} {g : Geometry} {field : BitVec 3} {m : Mode}
    {bm : List (List Bool)} (hm : Mode.ofField field = some m) (hbm : s.cfg.glyph g code = some bm) (x y : Int) :
    exec (.glyph x y code g field) s = startDrawing (glyphOps (s.cfg.font g) bm x y m) s := by
  simp only [exec, execGlyph, hm, hbm]

theorem exec_testPattern_of_id {id : Byte} {p : Pattern} (h : Pattern.ofId id = some p) (s : State) :
    exec (.testPattern id) s = startDrawing (patternOps s.cfg p) s := by
  simp only [exec, execTestPattern, h]

theorem exec_circle_of_idle {s : State} (hde : s.deOps = []) {field : BitVec 3} {m : Mode}
    (hm : Mode.ofField field = some m) (xc yc r : Int) : exec (.circle xc yc r field) s =
      .next { accept s with deOps := pixOps (circlePixels xc yc r) m } :=
  (startDrawingIn_of_mode hm _ s).trans (startDrawing_of_idle hde _)

theorem pixOps_eq_plotOps (pixels : List (Int × Int)) (m : Mode) : pixOps pixels m = plotOps pixels m fun _ => true :=
  rfl

theorem glyphOps_eq_plotOps (f : Font) (bm : List (List Bool)) (x y : Int) (m : Mode) : glyphOps f bm x y m =
    plotOps (cellPixels x y f.width f.height) m fun p => glyphBit bm (p.2 - y).toNat (p.1 - x).toNat := by
  simp [glyphOps, plotOps, cellPixels, List.map_flatMap, Function.comp_def]

theorem patternOps_eq_plotOps (c : Config) (p : Pattern) : patternOps c p =
    plotOps (cellPixels 0 0 c.width c.height) .normal fun q => p.pixel q.1.toNat q.2.toNat := by
  simp [patternOps, plotOps, cellPixels, List.map_flatMap, Function.comp_def]

end Sys2Proof.Machine

/-! The statements about the drawing primitives (41_primitives.md). -/

namespace Sys2Proof.Machine

/-- Settles O29, from LINE's closed form. -/
theorem linesAreConnectedAndPlotNoPixelTwice : Obligations.LinesAreConnectedAndPlotNoPixelTwice := by
  intro x1 y1 x2 y2
  refine ⟨rfl, ?_, length_linePixels .., nodup_linePixels .., fun k p q hp hq => ?_⟩
  · rw [List.getLast?_eq_getElem?, length_linePixels]
    exact getElem?_linePixels.mpr ⟨le_rfl, linePoint_last ..⟩
  · obtain ⟨-, rfl⟩ := getElem?_linePixels.mp hp
    obtain ⟨-, rfl⟩ := getElem?_linePixels.mp hq
    exact linePoint_step ..

/-- Settles O30: the statement is LINE's closed form, written out. -/
theorem linePixelsAreRoundedToTheNearest : Obligations.LinePixelsAreRoundedToTheNearest := by
  intro x1 y1 x2 y2 k
  simp only [getElem?_linePixels, ← sign_sub]
  refine ⟨fun hshallow hk => ⟨hk.trans (le_max_left ..), ?_⟩, fun hsteep hk => ⟨hk.trans (le_max_right ..), ?_⟩⟩
  · exact if_pos hshallow
  · exact if_neg (not_lt.mpr hsteep)

/-- Settles O31: inside the rectangle the sides are counted axis by axis, and an axis without extent has both ends
everywhere. -/
theorem boxPlotsItsBorderAsFourLines : Obligations.BoxPlotsItsBorderAsFourLines := by
  intro x1 y1 x2 y2 x y
  by_cases hin : (min x1 x2 ≤ x ∧ x ≤ max x1 x2) ∧ min y1 y2 ≤ y ∧ y ≤ max y1 y2
  · obtain ⟨hx, hy⟩ := hin
    have hxend : x1 = x2 → x = x1 ∨ x = x2 := by omega
    have hyend : y1 = y2 → y = y1 ∨ y = y2 := by omega
    rw [count_boxPixels_inside hx hy, border_count_eq hxend hyend]
    simp only [hx, hy, true_and, or_assoc]
  · rw [count_boxPixels_outside hin, if_pos (by omega)]

/-- Settles O32: the rectangle's list has no repetition. -/
theorem filledBoxPlotsEachPixelOnce : Obligations.FilledBoxPlotsEachPixelOnce := by
  intro x1 y1 x2 y2 x y
  simp only [(nodup_filledBoxPixels ..).count, mem_filledBoxPixels]

/-- Settles O33: at a positive radius the closed form sees only the offset's two absolute values, in either order. -/
theorem circlesAreSymmetricAndPlotNoPixelTwice : Obligations.CirclesAreSymmetricAndPlotNoPixelTwice := by
  intro xc yc r
  refine ⟨nodup_circlePixels xc yc r, fun dx dy h => ?_⟩
  obtain hneg | rfl | hpos := lt_trichotomy r 0
  · rw [circlePixels_of_neg hneg] at h
    cases h
  · rw [circlePixels_zero] at h ⊢
    simp only [List.mem_singleton, Prod.mk.injEq] at h ⊢
    omega
  · rw [sub_eq_add_neg, sub_eq_add_neg]
    simp only [mem_circlePixels hpos, abs_neg, min_comm |dy|, max_comm |dy|, and_self] at h ⊢
    exact h

/-- Settles O34: the octant's closed form, image by image. -/
theorem circlesPlotThePixelsNearestToTheCircle : Obligations.CirclesPlotThePixelsNearestToTheCircle :=
  fun _ _ _ _ _ hr => mem_circlePixels hr

/-- Settles O41: none of the three figures plots a pixel twice. -/
theorem figuresBlendEachOfTheirPixelsOnce : Obligations.FiguresBlendEachOfTheirPixelsOnce := by
  intro s i pixels m hs hq hi hslot ⟨field, hm, hfigure⟩
  have hfigureOps : modeField (encode i) = field ∧ i.op ≠ .testPattern ∧ i.op ≠ .glyph ∧ i.op.isDrawing = true ∧
      i.microOps s.cfg = pixOps pixels m ∧ pixels.Nodup := by
    obtain ⟨x1, y1, x2, y2, rfl, rfl⟩ | ⟨x1, y1, x2, y2, rfl, rfl⟩ | ⟨xc, yc, r, rfl, rfl⟩ := hfigure
    · exact ⟨modeField_pack .., nofun, nofun, rfl, by simp [Instr.microOps, hm], nodup_linePixels ..⟩
    · exact ⟨modeField_pack .., nofun, nofun, rfl, by simp [Instr.microOps, hm], nodup_filledBoxPixels ..⟩
    · exact ⟨modeField_pack .., nofun, nofun, rfl, by simp [Instr.microOps, hm], nodup_circlePixels ..⟩
  obtain ⟨hfield, ht, hg, hd, hops, hnodup⟩ := hfigureOps
  have hv := (Instr.legal_of_mode hi hm hfield ht).verdict_eq_execute hg s.cfg
  exact plotting_once_runs_to_its_end hs hq hi hd hslot hv (hops.trans (pixOps_eq_plotOps ..)) hnodup

/-- Settles O42: BOX's list is a plot with v = 1. -/
theorem boxBlendsEachPixelAsOftenAsItsLinesPlotIt : Obligations.BoxBlendsEachPixelAsOftenAsItsLinesPlotIt := by
  intro s x1 y1 x2 y2 field m hs hq hi hslot hm
  have hv := (Instr.legal_of_mode hi hm (modeField_pack ..) nofun).verdict_eq_execute nofun s.cfg
  have hops : (Instr.box x1 y1 x2 y2 field).microOps s.cfg = pixOps (boxPixels x1 y1 x2 y2) m := by
    simp [Instr.microOps, hm]
  exact plotting_runs_to_its_end hs hq hi rfl hslot hv (hops.trans (pixOps_eq_plotOps ..))

/-- Settles O43: the cell's list plots each of its pixels once. -/
theorem glyphBlendsItsWholeCell : Obligations.GlyphBlendsItsWholeCell := by
  intro s x y code g field m bm hs hq hi hslot hm hbm
  have hops : (Instr.glyph x y code g field).microOps s.cfg = glyphOps (s.cfg.font g) bm x y m := by
    simp only [Instr.microOps, hm, hbm]
  rw [glyphOps_eq_plotOps] at hops
  obtain ⟨t, hrun, hrest, hbit⟩ :=
    plotting_once_runs_to_its_end hs hq hi rfl hslot (verdict_glyph hm hbm) hops (nodup_cellPixels ..)
  rw [length_cellPixels] at hrun
  refine ⟨t, hrun, hrest, fun row col hrow hcol h => ?_, fun x' y' h hout => ?_⟩
  · rw [hbit _ _ h, if_pos (mem_cellPixels.mpr (by omega))]
    simp
  · rw [hbit _ _ h, if_neg (mt mem_cellPixels.mp hout)]

/-- Settles O44: the panel's list plots each pixel once, and NORMAL leaves nothing of what stood there. -/
theorem testPatternOverwritesThePanel : Obligations.TestPatternOverwritesThePanel := by
  intro s id p hs hq hslot hp
  have hi := testPattern_legal hp
  have hops : (Instr.testPattern id).microOps s.cfg = patternOps s.cfg p := by simp [Instr.microOps, hp]
  rw [patternOps_eq_plotOps] at hops
  obtain ⟨t, hrun, hrest, hbit⟩ :=
    plotting_once_runs_to_its_end hs hq hi.1 rfl hslot (hi.verdict_eq_execute nofun s.cfg) hops (nodup_cellPixels ..)
  rw [length_cellPixels] at hrun
  refine ⟨t, hrun, hrest, fun x y hx hy => ?_⟩
  have h : s.cfg.inRange x y = true := by simp [Config.inRange, hx, hy]
  rw [hbit _ _ h, if_pos (mem_cellPixels.mpr (by omega))]
  rfl

/-- Settles O16: no check refuses the command, and the idle DE takes its list. -/
theorem lineAndBoxCommandsStartTheirLists : Obligations.LineAndBoxCommandsStartTheirLists := by
  intro s x1 y1 x2 y2 field m hde hm
  have starts : ∀ ops, startDrawingIn field ops s = .next { accept s with deOps := ops m } :=
    fun ops => (startDrawingIn_of_mode hm ops s).trans (startDrawing_of_idle hde _)
  exact ⟨starts _, starts _, starts _⟩

/-- Settles O17, by the sign of the radius. -/
theorem circleStartsItsList : Obligations.CircleStartsItsList := by
  intro s xc yc r field m hde hm
  rw [exec_circle_of_idle hde hm]
  refine ⟨fun hneg => ?_, fun hzero => ?_, fun hpos => ?_⟩
  · rw [circlePixels_of_neg hneg, pixOps, List.map_nil, ← hde]
    rfl
  · rw [hzero]
    rfl
  · rw [circlePixels_of_pos hpos]
    rfl

/-- Settles O18: the mode and the glyph are there, and the idle DE takes the cell's list. -/
theorem glyphStartsItsList : Obligations.GlyphStartsItsList :=
  fun _ x y _ _ _ _ _ hde hm hbm => (exec_glyph_of_present hm hbm x y).trans (startDrawing_of_idle hde _)

/-- Settles O19, id by id: the idle DE takes the pattern's list. -/
theorem testPatternStartsItsList : Obligations.TestPatternStartsItsList := by
  intro s hde p hp
  have starts : ∀ {id : Byte} {pat : Pattern}, Pattern.ofId id = some pat → exec (.testPattern id) s =
      .next { accept s with deOps := patternOps s.cfg pat } :=
    fun h => (exec_testPattern_of_id h s).trans (startDrawing_of_idle hde _)
  simp only [List.mem_cons, List.not_mem_nil, or_false] at hp
  obtain rfl | rfl | rfl | rfl := hp
  · exact starts (pat := .alt0) rfl
  · exact starts (pat := .alt1) rfl
  · exact starts (pat := .stripe0) rfl
  · exact starts (pat := .stripe1) rfl

end Sys2Proof.Machine

/-! SUPPORT. SliceOrder(s) lists the bytes of the rows that are s modulo 4, each once (42_scan.md R200, R201). -/

namespace Sys2Proof

/-- The row of the byte in column `col` of `row` (20_memory.md R70). -/
theorem row_of_offset {bytesPerRow col : Nat} (h : col < bytesPerRow) (row : Nat) :
    (row * bytesPerRow + col) / bytesPerRow = row := by
  rw [Nat.mul_comm, Nat.mul_add_div (by omega), Nat.div_eq_of_lt h, Nat.add_zero]

theorem nodup_defaultSliceOrder (width height s : Nat) : (defaultSliceOrder width height s).Nodup := by
  refine List.nodup_flatMap.mpr ⟨fun k _ => List.nodup_range.map fun c c' => Nat.add_left_cancel, ?_⟩
  refine List.nodup_range.imp fun {k k'} hne => ?_
  rw [Function.onFun, List.disjoint_left]
  simp only [List.mem_map, List.mem_range]
  rintro _ ⟨c, hc, rfl⟩ ⟨c', hc', heq⟩
  have hrow := congrArg (· / (width / 8)) heq
  simp only [row_of_offset hc, row_of_offset hc'] at hrow
  omega

theorem mem_defaultSliceOrder {width height s off : Nat} (hs : s < 4) (hh : height % 4 = 0) :
    off ∈ defaultSliceOrder width height s ↔ off < width / 8 * height ∧ off / (width / 8) % 4 = s := by
  constructor
  · intro h
    refine ⟨lt_of_mem_defaultSliceOrder hs hh h, ?_⟩
    simp only [defaultSliceOrder, List.mem_flatMap, List.mem_map, List.mem_range] at h
    obtain ⟨k, -, c, hc, rfl⟩ := h
    rw [row_of_offset hc]; omega
  · rintro ⟨hlt, hrow⟩
    have hrows : off / (width / 8) < height := Nat.div_lt_of_lt_mul hlt
    have hbpr : 0 < width / 8 := Nat.pos_of_mul_pos_right (Nat.zero_lt_of_lt hlt)
    simp only [defaultSliceOrder, List.mem_flatMap, List.mem_map, List.mem_range]
    refine ⟨off / (width / 8) / 4, by omega, off % (width / 8), Nat.mod_lt _ hbpr, ?_⟩
    rw [show s + 4 * (off / (width / 8) / 4) = off / (width / 8) by omega]
    exact Nat.div_add_mod' ..

theorem Config.length_sliceOrder {c : Config} (hc : c.wf) (sl : BitVec 2) :
    (c.sliceOrder[sl.toNat]'sl.isLt).length = c.sliceBytes :=
  (Config.sliceOrder_perm hc sl).length_eq.trans (length_defaultSliceOrder ..)

end Sys2Proof

/-! SUPPORT. The SE's steps are exactly its moves, their frame, and what a move does not read: the turns to come, and FB
but at step 3 (42_scan.md R202, R207). -/

namespace Sys2Proof.Machine

theorem seStep_of_scanMoves {s t : State} (h : ScanMoves s t) : seStep s = some (.next t) := by
  cases h with
  | skips hse hbus | starts hse hbus => simp [seStep, hse, hbus, seSample]
  | shifts sl k off hse hoff hlt => simp [seStep, hse, seTransfer, seShift, hoff, hlt]
  | blanks sl hse | selects sl hse | latches sl hse | enables sl hse | advances sl hse =>
    simp [seStep, hse, seTransfer]

/-- Step 0, whatever is drawn (42_scan.md R203). -/
theorem scanMoves_of_sample {s : State} (hse : s.se = .sample) : ScanMoves s (seSample (drawBus s).1 (drawBus s).2) :=
  seStep_cases (by simp [seStep, hse])

theorem drawBus_eq (s : State) : (drawBus s).2 =
    { s with busDraws := (drawBus s).2.busDraws, samples := (drawBus s).2.samples } := by
  unfold drawBus; split <;> rfl

theorem drawBus_fst_congr {s t : State} (hdraws : t.busDraws = s.busDraws) (hsamples : t.samples = s.samples) :
    (drawBus t).1 = (drawBus s).1 := by
  simp only [drawBus, hdraws, hsamples]; split <;> rfl

theorem drawBus_withFb (s : State) (fb : Memory) :
    drawBus { s with fb := fb } = ((drawBus s).1, { (drawBus s).2 with fb := fb }) := by
  simp only [drawBus]; split <;> rfl

theorem drawBus_withTurns (s : State) (sched : List Agent) (n : Nat) :
    drawBus { s with schedule := sched, turns := n } =
      ((drawBus s).1, { (drawBus s).2 with schedule := sched, turns := n }) := by
  simp only [drawBus]; split <;> rfl

/-- What a move of the SE changes, at most (42_scan.md R207). -/
theorem ScanMoves.changes_only {s t : State} (h : ScanMoves s t) :
    t = { s with cursor := t.cursor, skip := t.skip, se := t.se, rowOe := t.rowOe, rowSel := t.rowSel,
                 events := t.events, busDraws := t.busDraws, samples := t.samples } := by
  cases h with
  | skips | starts => rw [drawBus_eq]
  | blanks | selects | shifts | latches | enables | advances => rfl

theorem ScanMoves.withFb {s t : State} (h : ScanMoves s t) (hse : ∀ sl k, s.se ≠ .transfer sl (.shift k))
    (fb : Memory) : ScanMoves { s with fb := fb } { t with fb := fb } := by
  cases h with
  | skips hse hbus | starts hse hbus =>
    simpa [drawBus_withFb, hbus, seSample] using scanMoves_of_sample (s := { s with fb := fb }) hse
  | blanks sl hse => exact .blanks sl hse
  | selects sl hse => exact .selects sl hse
  | shifts sl k off hshift => exact absurd hshift (hse sl k)
  | latches sl hse => exact .latches sl hse
  | enables sl hse => exact .enables sl hse
  | advances sl hse => exact .advances sl hse

theorem ScanMoves.withTurns {s t : State} (h : ScanMoves s t) (sched : List Agent) (n : Nat) :
    ScanMoves { s with schedule := sched, turns := n } { t with schedule := sched, turns := n } := by
  cases h with
  | skips hse hbus | starts hse hbus =>
    simpa [drawBus_withTurns, hbus, seSample] using
      scanMoves_of_sample (s := { s with schedule := sched, turns := n }) hse
  | blanks sl hse => exact .blanks sl hse
  | selects sl hse => exact .selects sl hse
  | shifts sl k off hse hoff hlt => exact .shifts sl k off hse hoff hlt
  | latches sl hse => exact .latches sl hse
  | enables sl hse => exact .enables sl hse
  | advances sl hse => exact .advances sl hse

end Sys2Proof.Machine

/-! SUPPORT. Runs with the SE alone at work, known but for the turns taken: SCAN_ONCE is accepted, the sample step skips
the scan or starts it, and a transfer that starts goes through its phases (42_scan.md R202, R203, R205). -/

namespace Sys2Proof.Machine

/-- A run of `m` steps and a run of `n` steps from where it ends. -/
theorem runsTo_add {m n : Nat} {s t u : State} (h : runsTo m s t) (h' : runsTo n t u) : runsTo (m + n) s u := by
  induction m generalizing s with
  | zero => cases h; rwa [Nat.zero_add]
  | succ m ih =>
    obtain ⟨v, hstep, hrun⟩ := runsTo_succ.mp h
    rw [Nat.succ_add]
    exact runsTo_succ.mpr ⟨v, hstep, ih hrun⟩

/-- Whatever turns are to come in `s`, `n` steps from there lead to `t` with some turns taken. -/
def RunsWhateverTurns (n : Nat) (s t : State) : Prop :=
  ∀ sched k, ∃ sched' k', runsTo n { s with schedule := sched, turns := k } { t with schedule := sched', turns := k' }

theorem RunsWhateverTurns.refl (s : State) : RunsWhateverTurns 0 s s := fun sched k => ⟨sched, k, runsTo_zero rfl⟩

theorem RunsWhateverTurns.trans {m n : Nat} {s t u : State} (h : RunsWhateverTurns m s t)
    (h' : RunsWhateverTurns n t u) : RunsWhateverTurns (m + n) s u := by
  intro sched k
  obtain ⟨sched', k', hrun⟩ := h sched k
  obtain ⟨sched'', k'', hrun'⟩ := h' sched' k'
  exact ⟨sched'', k'', runsTo_add hrun hrun'⟩

theorem RunsWhateverTurns.of_step {s t : State}
    (h : ∀ sched k, ∃ sched' k', step { s with schedule := sched, turns := k } =
      .next { t with schedule := sched', turns := k' }) : RunsWhateverTurns 1 s t := by
  intro sched k
  obtain ⟨sched', k', hstep⟩ := h sched k
  exact ⟨sched', k', runsTo_succ.mpr ⟨_, hstep, runsTo_zero rfl⟩⟩

/-- No agent but the SE can move. -/
abbrev ScanAlone (s : State) : Prop := s.slot = none ∧ s.deOps = [] ∧ s.host = []

theorem ScanMoves.step_alone {s t : State} (h : ScanMoves s t) (hs : ScanAlone s) :
    ∃ sched k, step s = .next { t with schedule := sched, turns := k } := by
  obtain ⟨hslot, hde, hhost⟩ := hs
  have hmove := h.withTurns (drawTurn s).2.schedule (drawTurn s).2.turns
  rw [← drawTurn_eq] at hmove
  refine ⟨_, _, step_of_only (a := .se) (seStep_of_scanMoves hmove) fun b hb => ?_⟩
  cases b with
  | port => exact agentStep_port_of_empty (by simpa using hslot)
  | de => exact agentStep_de_of_idle (by simpa using hde)
  | se => exact absurd rfl hb
  | host => exact agentStep_host_of_done (by simpa using hhost)

theorem ScanMoves.runs_alone {s t : State} (h : ScanMoves s t) (hs : ScanAlone s) : RunsWhateverTurns 1 s t :=
  .of_step fun sched k => (h.withTurns sched k).step_alone hs

/-- In a quiet state with SCAN_ONCE in the slot the next step accepts it (30_encoding.md R111). -/
theorem step_of_scanOnce {s : State} (hq : quiet s) (hs : s.slot = some (encode .scanOnce)) :
    ∃ sched k, step s = .next { accept s with se := .sample, schedule := sched, turns := k } := by
  obtain ⟨hde, hse, hhost⟩ := hq
  have hport : agentStep .port (drawTurn s).2 = some (.next { accept (drawTurn s).2 with se := .sample }) :=
    portStep_of_exec (by simpa using hs) (decode_encode rfl) (exec_scanOnce_of_idle (by simpa using hse)) rfl
  have hstep := step_of_only hport fun b hb => by
    cases b with
    | port => exact absurd rfl hb
    | de => exact agentStep_de_of_idle (by simpa using hde)
    | se => exact agentStep_se_of_idle (by simpa using hse)
    | host => exact agentStep_host_of_done (by simpa using hhost)
  rw [drawTurn_eq] at hstep
  exact ⟨_, _, hstep⟩

theorem runs_of_scanOnce {s : State} (hq : quiet s) (hs : s.slot = some (encode .scanOnce)) :
    RunsWhateverTurns 1 s { accept s with se := .sample } :=
  .of_step fun sched k => step_of_scanOnce (s := { s with schedule := sched, turns := k }) hq hs

/-- Steps 1 and 2 (42_scan.md R202). -/
theorem scan_blanks_and_selects {s : State} {sl : BitVec 2} (hs : ScanAlone s) (hse : s.se = .transfer sl .blank) :
    RunsWhateverTurns 2 s { s with events := s.events ++ [.oe false] ++ [.sel sl], rowOe := false, rowSel := sl,
                                   se := .transfer sl (.shift 0) } :=
  ((ScanMoves.blanks sl hse).runs_alone hs).trans ((ScanMoves.selects sl rfl).runs_alone hs)

/-- Step 3 from the k-th byte on, `m` bytes to go, with the phase that follows the byte before it (42_scan.md R202). -/
theorem scan_shifts {s : State} {sl : BitVec 2} {k m : Nat} (hc : s.cfg.wf) (hs : ScanAlone s)
    (hk : k + m = s.cfg.sliceBytes)
    (hse : s.se = .transfer sl (if k < s.cfg.sliceBytes then .shift k else .latch)) :
    RunsWhateverTurns m s { s with
      events := s.events ++ (((s.cfg.sliceOrder[sl.toNat]'sl.isLt).drop k).map s.fb.read).map .shift,
      se := .transfer sl .latch } := by
  have hlen := Config.length_sliceOrder hc sl
  induction m generalizing s k with
  | zero =>
    rw [if_neg (by omega)] at hse
    rw [List.drop_eq_nil_of_le (by omega), ← hse]
    simpa using RunsWhateverTurns.refl s
  | succ m ih =>
    have hlt : k < s.cfg.sliceBytes := by omega
    rw [if_pos hlt] at hse
    obtain ⟨off, hoff, hin⟩ := Config.exists_sliceOffset hc sl hlt
    obtain ⟨hget, hoffEq⟩ := List.getElem?_eq_some_iff.mp hoff
    rw [List.drop_eq_getElem_cons hget, hoffEq, List.map_cons, List.map_cons, List.append_cons, Nat.add_comm m]
    exact ((ScanMoves.shifts sl k off hse hoff hin).runs_alone hs).trans
      (ih (k := k + 1) hc hs ((Nat.succ_add_eq_add_succ k m).trans hk) rfl hlen)

/-- Steps 4 to 6 (42_scan.md R202, R205). -/
theorem scan_latches_and_advances {s : State} {sl : BitVec 2} (hs : ScanAlone s) (hse : s.se = .transfer sl .latch) :
    RunsWhateverTurns 3 s { s with events := s.events ++ [.latch] ++ [.oe true], rowOe := true, cursor := sl + 1,
                                   se := .idle } :=
  (((ScanMoves.latches sl hse).runs_alone hs).trans ((ScanMoves.enables sl rfl).runs_alone hs)).trans
    ((ScanMoves.advances sl rfl).runs_alone hs)

/-- Steps 1 to 6: a whole transfer (42_scan.md R202, R205). -/
theorem scan_transfers {s : State} {sl : BitVec 2} (hc : s.cfg.wf) (hs : ScanAlone s)
    (hse : s.se = .transfer sl .blank) :
    RunsWhateverTurns (2 + (s.cfg.sliceBytes + 3)) s { s with
      events := s.events ++ transferEvents sl ((s.cfg.sliceOrder[sl.toNat]'sl.isLt).map s.fb.read),
      rowOe := true, rowSel := sl, cursor := sl + 1, se := .idle } := by
  have hevents (bytes : List Byte) : s.events ++ transferEvents sl bytes =
      s.events ++ [.oe false] ++ [.sel sl] ++ bytes.map .shift ++ [.latch] ++ [.oe true] := by simp [transferEvents]
  have hphase : Scan.transfer sl (.shift 0) = .transfer sl (if 0 < s.cfg.sliceBytes then .shift 0 else .latch) := by
    rw [if_pos (Config.sliceBytes_pos hc)]
  rw [hevents]
  exact (scan_blanks_and_selects hs hse).trans
    (.trans (scan_shifts (sl := sl) (k := 0) hc hs (Nat.zero_add _) hphase) (scan_latches_and_advances hs rfl))

end Sys2Proof.Machine

/-! SUPPORT. The shape of the event history (42_scan.md R202, R205, R206): an empty history has it, the SE's moves extend
it by what they emit or close the transfer in progress, and no other agent but RESET touches what it reads. -/

namespace Sys2Proof.Machine

theorem transfersEvents_concat (sl : BitVec 2) (whole : List (List Byte)) (bytes : List Byte) :
    transfersEvents sl (whole ++ [bytes]) =
      transfersEvents sl whole ++ transferEvents (sl + BitVec.ofNat 2 whole.length) bytes := by
  induction whole generalizing sl with
  | nil => simp [transfersEvents]
  | cons b whole ih =>
    have hslice : sl + BitVec.ofNat 2 (whole.length + 1) = sl + 1 + BitVec.ofNat 2 whole.length := by
      rw [BitVec.ofNat_add]; ac_rfl
    simp [transfersEvents, ih, hslice]

theorem State.HistoryOk.of_empty {s : State} (hcursor : s.cursor = s.cfg.scanStart) (hse : s.se = .idle)
    (hevents : s.events = []) : s.HistoryOk :=
  ⟨[], [], by simp, by simpa using hcursor, by simp [hse, shiftedBytes],
    by simp [hse, hevents, transfersEvents, partialEvents]⟩

/-- While the cursor stands, the transfer in progress grows by the bytes `more` and the history by the events `new`. -/
theorem State.HistoryOk.grows {s t : State} (h : s.HistoryOk) (more : List Byte) (new : List Event)
    (hcfg : t.cfg = s.cfg) (hcursor : t.cursor = s.cursor) (hevents : t.events = s.events ++ new)
    (hlen : shiftedBytes s.cfg t.se = shiftedBytes s.cfg s.se + more.length)
    (hpart : ∀ bytes, bytes.length = shiftedBytes s.cfg s.se →
      partialEvents (bytes ++ more) t.se = partialEvents bytes s.se ++ new) : t.HistoryOk := by
  obtain ⟨whole, bytes, hwhole, hcur, hbytes, hev⟩ := h
  refine ⟨whole, bytes ++ more, hcfg ▸ hwhole, hcfg ▸ hcursor.trans hcur, ?_, ?_⟩
  · rw [hcfg, hlen, List.length_append, hbytes]
  · rw [hevents, hev, hcfg, hpart bytes hbytes, List.append_assoc]

theorem State.HistoryOk.of_eq {s t : State} (h : s.HistoryOk) (hcfg : t.cfg = s.cfg) (hpart : scanPart t = scanPart s)
    (hse : t.se = s.se) : t.HistoryOk := by
  simp only [scanPart, Prod.mk.injEq] at hpart
  obtain ⟨hcursor, -, -, -, hevents⟩ := hpart
  exact h.grows [] [] hcfg hcursor (by simpa using hevents) (by simp [hse]) (by simp [hse])

/-- Step 6 makes the transfer in progress a whole one and moves the cursor behind it (42_scan.md R205). -/
theorem State.HistoryOk.closes {s : State} (h : s.HistoryOk) (hse : s.se = .transfer s.cursor .advance) :
    State.HistoryOk { s with cursor := s.cursor + 1, se := .idle } := by
  obtain ⟨whole, bytes, hwhole, hcur, hbytes, hev⟩ := h
  rw [hse] at hbytes hev
  refine ⟨whole ++ [bytes], [], ?_, ?_, rfl, ?_⟩
  · simpa [or_imp, forall_and] using ⟨hwhole, hbytes⟩
  · simp only [hcur, List.length_append, List.length_singleton, BitVec.ofNat_add]; ac_rfl
  · rw [transfersEvents_concat, ← hcur]
    simpa [partialEvents, transferEvents] using hev

theorem Accepts.historyOk {i : Instr} {s t : State} (h : Accepts i s t) (hs : s.HistoryOk) : t.HistoryOk := by
  cases h with
  | waits => exact hs
  | raises => exact hs.of_eq (by simp) (by simp [scanPart]) (by simp)
  | nop | fence | draws => exact hs.of_eq rfl rfl rfl
  | scans hi hse =>
    exact hs.grows [] [] rfl rfl (by simp) (by simp [hse, shiftedBytes]) (by simp [hse, partialEvents])

theorem perform_historyOk {op : MicroOp} {s t : State} (h : perform op s = .next t) (hs : s.HistoryOk) :
    t.HistoryOk := by
  obtain ⟨rfl, -, -⟩ | ⟨x, y, -, rfl⟩ := perform_next h <;> exact hs.of_eq rfl rfl rfl

/-- Each phase of a scan adds its event, step 3 its byte as well, and step 6 closes the transfer (42_scan.md R202,
R205). -/
theorem ScanMoves.historyOk {s t : State} (h : ScanMoves s t) (hinv : s.Inv) (hs : s.HistoryOk) : t.HistoryOk := by
  have hscan := hinv.scanOk
  cases h with
  | skips hse | starts hse =>
    exact hs.grows [] [] (by simp) (by simp) (by simp) (by simp [hse, shiftedBytes]) (by simp [hse, partialEvents])
  | blanks sl hse =>
    exact hs.grows [] [.oe false] rfl rfl rfl (by simp [hse, shiftedBytes]) (by simp [hse, partialEvents])
  | selects sl hse =>
    exact hs.grows [] [.sel sl] rfl rfl rfl (by simp [hse, shiftedBytes])
      (by simp [hse, shiftedBytes, partialEvents])
  | shifts sl k off hse =>
    rw [hse] at hscan
    obtain ⟨-, -, -, hk⟩ := hscan
    refine hs.grows [s.fb.read off] [.shift (s.fb.read off)] rfl rfl rfl ?_ fun bytes _ => ?_
    · dsimp only
      split
      · simp [hse, shiftedBytes]
      · simp only [hse, shiftedBytes, List.length_singleton]; omega
    · dsimp only
      split <;> simp [hse, partialEvents]
  | latches sl hse =>
    exact hs.grows [] [.latch] rfl rfl rfl (by simp [hse, shiftedBytes]) (by simp [hse, partialEvents])
  | enables sl hse =>
    exact hs.grows [] [.oe true] rfl rfl rfl (by simp [hse, shiftedBytes]) (by simp [hse, partialEvents])
  | advances sl hse =>
    rw [hse] at hscan
    obtain ⟨rfl, -⟩ := hscan
    exact hs.closes hse

theorem HostMoves.historyOk {s t : State} (h : HostMoves s t) (hs : s.HistoryOk) : t.HistoryOk := by
  cases h with
  | writes | reads | waits => exact hs.of_eq rfl rfl rfl
  | resets => exact .of_empty rfl rfl rfl

theorem Moves.historyOk {s t : State} (h : Moves s t) (hinv : s.Inv) (hs : s.HistoryOk) : t.HistoryOk := by
  cases h with
  | refuses => exact hs.of_eq (by simp) (by simp [scanPart]) (by simp)
  | accepts w hslot i hw h => exact h.historyOk hs
  | draws op rest hops h => exact perform_historyOk h (hs.of_eq rfl rfl rfl)
  | scans h => exact h.historyOk hinv hs
  | host h => exact h.historyOk hs

end Sys2Proof.Machine

/-! The statements about the scan (42_scan.md). -/

namespace Sys2Proof.Machine

/-- Settles O50, by the agent that moves. -/
theorem theHistoryIsConsecutiveWholeTransfers : Obligations.TheHistoryIsConsecutiveWholeTransfers := by
  intro s t hinv hs hstep
  obtain rfl | hmove := step_next_cases hstep
  · exact hs
  · exact hmove.historyOk (drawTurn_inv hinv) (hs.of_eq (by simp) (by simp [scanPart]) (by simp))

/-- Settles O45: an acceptance, the sample step and a whole transfer. -/
theorem aScanTransfersTheSliceAtTheCursor : Obligations.AScanTransfersTheSliceAtTheCursor := by
  intro s hinv hq hs hbus
  obtain ⟨hde, hse, hhost⟩ := hq
  have hdraw : (drawBus { accept s with se := .sample }).1 = (drawBus s).1 := drawBus_fst_congr rfl rfl
  have hstart := ScanMoves.starts (s := { accept s with se := .sample }) rfl (hdraw.trans hbus)
  rw [drawBus_eq] at hstart
  have hrun := ((runs_of_scanOnce ⟨hde, hse, hhost⟩ hs).trans (hstart.runs_alone ⟨rfl, hde, hhost⟩)).trans
    (scan_transfers (sl := s.cursor) hinv.cfgOk ⟨rfl, hde, hhost⟩ rfl)
  obtain ⟨sched, k, hrun⟩ := hrun s.schedule s.turns
  have hsteps : 1 + (s.cfg.sliceBytes + 6) = 1 + 1 + (2 + (s.cfg.sliceBytes + 3)) := by omega
  rw [hsteps]
  refine ⟨_, hrun, atRest_of_quiet ⟨hde, rfl, hhost⟩ rfl, rfl, rfl, rfl, rfl, rfl, ?_⟩
  simp [accept, hse]

/-- Settles O46: an acceptance and the sample step. -/
theorem aClaimedBusSkipsTheScan : Obligations.AClaimedBusSkipsTheScan := by
  intro s hq hs hbus
  obtain ⟨hde, hse, hhost⟩ := hq
  have hdraw : (drawBus { accept s with se := .sample }).1 = (drawBus s).1 := drawBus_fst_congr rfl rfl
  have hskip := ScanMoves.skips (s := { accept s with se := .sample }) rfl (hdraw.trans hbus)
  rw [drawBus_eq] at hskip
  have hrun := (runs_of_scanOnce ⟨hde, hse, hhost⟩ hs).trans (hskip.runs_alone ⟨rfl, hde, hhost⟩)
  obtain ⟨sched, k, hrun⟩ := hrun s.schedule s.turns
  refine ⟨_, hrun, atRest_of_quiet ⟨hde, rfl, hhost⟩ rfl, ?_⟩
  simp [accept, hse]

/-- Settles O47: every move but a shift is the same over any framebuffer. -/
theorem theScanEngineNeverWritesTheFramebuffer : Obligations.TheScanEngineNeverWritesTheFramebuffer := by
  intro s t h
  have hmove := seStep_cases h
  exact ⟨hmove.changes_only, fun hse fb => seStep_of_scanMoves (hmove.withFb hse fb)⟩

/-- Settles O48: SliceOrder(s) is a permutation of the default order, which has the three properties. -/
theorem theSlicesPartitionTheFramebuffer : Obligations.TheSlicesPartitionTheFramebuffer := by
  intro c hc s
  have hlen := Config.length_sliceOrder hc (BitVec.ofFin s)
  obtain ⟨-, -, -, hh, -, -, hperm, -⟩ := hc
  exact ⟨hlen, (hperm s).nodup_iff.mpr (nodup_defaultSliceOrder ..),
    fun a => (hperm s).mem_iff.trans (mem_defaultSliceOrder s.isLt hh)⟩

end Sys2Proof.Machine

/-! The statement about the control commands (43_control.md). -/

namespace Sys2Proof.Machine

/-- NOP looks at no engine (43_control.md R230). -/
theorem exec_nop (s : State) : exec .nop s = .next (accept s) := rfl

/-- Settles O13: NOP by its equation; for FENCE, one busy engine denies that both are idle. -/
theorem nopIsAlwaysAcceptedAndFenceWaitsForBothEngines :
    Obligations.NopIsAlwaysAcceptedAndFenceWaitsForBothEngines :=
  fun s => ⟨exec_nop s, exec_fence_of_idle, fun hbusy => exec_fence_of_busy (not_and_or.mpr hbusy)⟩

end Sys2Proof.Machine

/-! SUPPORT. The fault flags and the host's moves (60_exceptions.md R240, R241): who writes a flag, and that no step gives
the host a new move. -/

namespace Sys2Proof.Machine

theorem flag_congr {s t : State} (hcmd : t.fIllcmd = s.fIllcmd) (hmode : t.fIllmode = s.fIllmode)
    (harg : t.fIllarg = s.fIllarg) (f : FaultFlag) : flag f t = flag f s := by
  cases f with
  | illcmd => exact hcmd
  | illmode => exact hmode
  | illarg => exact harg

@[simp] theorem flag_drawTurn (f : FaultFlag) (s : State) : flag f (drawTurn s).2 = flag f s :=
  flag_congr (drawTurn_fIllcmd s) (drawTurn_fIllmode s) (drawTurn_fIllarg s) f

@[simp] theorem flag_resetBlock (f : FaultFlag) (s : State) : flag f (resetBlock s) = false := by cases f <;> rfl

/-- No flag is written, or a word is consumed whose verdict is the one fault that is set (60_exceptions.md R240). -/
abbrev FaultFlagsWritten (s t : State) : Prop :=
  (∀ f, flag f t = flag f s) ∨
    ∃ w g, s.slot = some w ∧ t.slot = none ∧ verdict s.cfg w = .fault g ∧
      ∀ f, flag f t = (decide (f = g) || flag f s)

/-- Executing a word writes no flag (30_encoding.md R111). -/
theorem flag_of_portStep_execute {s t : State} {w : Word} {op : Op} (hslot : s.slot = some w)
    (hv : verdict s.cfg w = .execute op) (h : portStep s = some (.next t)) (f : FaultFlag) : flag f t = flag f s := by
  have hport := thePortFollowsTheVerdict s w hslot
  rw [hv] at hport
  cases op with
  | nop => cases h.symm.trans hport; exact flag_congr rfl rfl rfl f
  | fence | scanOnce | writePixel | readPixel | clear | line | box | filledBox | circle | glyph | testPattern =>
    dsimp only at hport
    rw [hport] at h
    split at h <;> cases h
    exact flag_congr rfl rfl rfl f

theorem portStep_faultFlagsWritten {s t : State} (h : portStep s = some (.next t)) : FaultFlagsWritten s t := by
  obtain ⟨w, hslot, -⟩ := portStep_cases h
  cases hv : verdict s.cfg w with
  | fault g =>
    cases h.symm.trans (portStep_of_verdict_fault hslot hv)
    exact .inr ⟨w, g, hslot, raiseFault_slot s g, hv, flag_raiseFault s g⟩
  | execute op => exact .inl (flag_of_portStep_execute hslot hv h)

theorem flag_of_perform {op : MicroOp} {rest : List MicroOp} {s t : State}
    (h : perform op { s with deOps := rest } = .next t) (f : FaultFlag) : flag f t = flag f s := by
  obtain ⟨rfl, -, -⟩ | ⟨x, y, -, rfl⟩ := perform_next h <;> exact flag_congr rfl rfl rfl f

theorem ScanMoves.flag_eq {s t : State} (h : ScanMoves s t) (f : FaultFlag) : flag f t = flag f s := by
  cases h <;> exact flag_congr (by simp) (by simp) (by simp) f

/-- The host clears every flag by RESET and writes none by its other moves (60_exceptions.md R241). -/
theorem HostMoves.flag_cases {s t : State} (h : HostMoves s t) :
    (HostMove.reset ∈ s.host ∧ ∀ f, flag f t = false) ∨ ∀ f, flag f t = flag f s := by
  cases h with
  | resets rest hhost => exact .inl ⟨by simp [hhost], fun f => flag_resetBlock f s⟩
  | writes | reads | waits => exact .inr (flag_congr rfl rfl rfl)

theorem agentStep_faultFlagsWritten {a : Agent} {s t : State} (h : agentStep a s = some (.next t)) :
    (HostMove.reset ∈ s.host ∧ ∀ f, flag f t = false) ∨ FaultFlagsWritten s t := by
  cases a with
  | port => exact .inr (portStep_faultFlagsWritten h)
  | de =>
    obtain ⟨op, rest, -, hr⟩ := deStep_eq_some.mp h
    exact .inr (.inl (flag_of_perform hr.symm))
  | se => exact .inr (.inl (seStep_cases h).flag_eq)
  | host =>
    obtain ⟨t', ht', hr⟩ := Option.map_eq_some_iff.mp h
    cases hr
    exact (hostStep_cases ht').flag_cases.imp_right .inl

/-- A step of the machine takes a turn before the move, which writes no flag either. -/
theorem step_faultFlagsWritten {s t : State} (h : step s = .next t) :
    (HostMove.reset ∈ s.host ∧ ∀ f, flag f t = false) ∨ FaultFlagsWritten s t := by
  obtain ⟨hr, -⟩ | ⟨a, ha⟩ := step_cases h
  · cases hr; exact .inr (.inl fun _ => rfl)
  · simpa only [FaultFlagsWritten, drawTurn_cfg, drawTurn_slot, drawTurn_host, flag_drawTurn] using
      agentStep_faultFlagsWritten ha

theorem FaultFlagsWritten.keeps_set {s t : State} (h : FaultFlagsWritten s t) {f : FaultFlag}
    (hf : flag f s = true) : flag f t = true := by
  obtain hkeep | ⟨w, g, -, -, -, hset⟩ := h
  · rw [hkeep, hf]
  · rw [hset, hf, Bool.or_true]

/-- No agent gives the host a new move; the host itself takes them from the head of its list. -/
theorem Moves.host_suffix {s t : State} (h : Moves s t) : t.host <:+ s.host := by
  cases h with
  | refuses => simp
  | accepts w hslot i hw h hempty => rw [h.frame]
  | draws op rest hops h => obtain ⟨rfl, -, -⟩ | ⟨x, y, -, rfl⟩ := perform_next h <;> exact List.suffix_rfl
  | scans h =>
    obtain ⟨-, -, -, -, hhost⟩ := h.frame
    rw [hhost]
  | host h =>
    cases h with
    | writes w rest hhost | reads rest hhost | waits rest hhost | resets rest hhost =>
      rw [hhost]
      exact List.suffix_cons ..

theorem step_host_suffix {s t : State} (h : step s = .next t) : t.host <:+ s.host := by
  obtain rfl | hmove := step_next_cases h
  · exact List.suffix_rfl
  · simpa using hmove.host_suffix

/-- In a run without RESET a set flag stays set, by induction on the run (60_exceptions.md R241). -/
theorem runsTo_keeps_flag {n : Nat} {s t : State} {f : FaultFlag} (hhost : HostMove.reset ∉ s.host)
    (hrun : runsTo n s t) (hf : flag f s = true) : flag f t = true := by
  induction n generalizing s with
  | zero => cases hrun; exact hf
  | succ n ih =>
    obtain ⟨u, hstep, hrest⟩ := runsTo_succ.mp hrun
    have hu : HostMove.reset ∉ u.host := fun hm => hhost ((step_host_suffix hstep).mem hm)
    obtain ⟨hreset, -⟩ | hwritten := step_faultFlagsWritten hstep
    · exact absurd hreset hhost
    · exact ih hu hrest (hwritten.keeps_set hf)

end Sys2Proof.Machine

/-! SUPPORT. STATUS after power-on (70_reset_and_hazards.md R280, R281). -/

namespace Sys2Proof.Machine

/-- After power-on STATUS shows SCAN_START as the cursor and nothing else (70_reset_and_hazards.md R281). -/
theorem status_resetOf (c : Config) : status (State.resetOf c) = (c.scanStart.setWidth 16) <<< 2 := by
  apply BitVec.eq_of_getLsbD_eq
  intro k hk
  rw [status_getLsbD]
  match k with
  | 0 | 1 | 2 | 3 | 4 | 5 | 6 | 7 | 8 | 9 | 10 => simp [statusBit, State.resetOf, deBusy, seBusy]
  | k + 11 => simp [statusBit]

end Sys2Proof.Machine

/-! The statements about faults and exceptions (60_exceptions.md). -/

namespace Sys2Proof.Machine

/-- Settles O58: only RESET clears a flag, and only the consumption of a word with that verdict sets one. -/
theorem faultFlagsAreSticky : Obligations.FaultFlagsAreSticky := by
  refine ⟨fun _ _ _ _ => runsTo_keeps_flag, fun s t f hstep hclear hset => ?_⟩
  obtain ⟨-, hcleared⟩ | hkeep | ⟨w, g, hslot, hempty, hv, hflags⟩ := step_faultFlagsWritten hstep
  · simp [hcleared] at hset
  · simp [hkeep, hclear] at hset
  · have hfg : f = g := by simpa [hflags, hclear] using hset
    exact ⟨w, hslot, hempty, hfg ▸ hv⟩

/-- Settles O10: the fields are the reset state's own, and STATUS is compared bit by bit. -/
theorem powerOnStateIsTheResetState : Obligations.PowerOnStateIsTheResetState :=
  fun c => ⟨fun _ => rfl, rfl, rfl, rfl, rfl, rfl, rfl, rfl, status_resetOf c, rfl⟩

end Sys2Proof.Machine

/-! SUPPORT. How many micro-operations a drawing's list has (70_reset_and_hazards.md R290). -/

namespace Sys2Proof.Machine

theorem length_pixOps (pixels : List (Int × Int)) (m : Mode) : (pixOps pixels m).length = pixels.length :=
  List.length_map _

theorem length_clearOps (c : Config) (b : Byte) : (clearOps c b).length = c.fbBytes := by simp [clearOps]

theorem length_glyphOps (f : Font) (bm : List (List Bool)) (x y : Int) (m : Mode) :
    (glyphOps f bm x y m).length = f.width * f.height := by
  rw [glyphOps_eq_plotOps, length_plotOps, length_cellPixels, Nat.mul_comm]

theorem length_patternOps (c : Config) (p : Pattern) : (patternOps c p).length = c.width * c.height := by
  rw [patternOps_eq_plotOps, length_plotOps, length_cellPixels, Nat.mul_comm]

theorem length_boxPixels (x1 y1 x2 y2 : Int) : ((boxPixels x1 y1 x2 y2).length : Int) =
    2 * (max x1 x2 - min x1 x2 + 1) + 2 * (max y1 y2 - min y1 y2 + 1) := by
  simp only [boxPixels, List.length_append, length_linePixels]
  omega

theorem length_filledBoxPixels (x1 y1 x2 y2 : Int) : ((filledBoxPixels x1 y1 x2 y2).length : Int) =
    (max x1 x2 - min x1 x2 + 1) * (max y1 y2 - min y1 y2 + 1) := by
  have hx : ((max x1 x2 - min x1 x2 + 1).toNat : Int) = max x1 x2 - min x1 x2 + 1 := by omega
  have hy : ((max y1 y2 - min y1 y2 + 1).toNat : Int) = max y1 y2 - min y1 y2 + 1 := by omega
  rw [filledBoxPixels_eq, length_cellPixels, Nat.cast_mul, hx, hy, mul_comm]

end Sys2Proof.Machine

/-! SUPPORT. RESET's one step (70_reset_and_hazards.md R280), and that a panel with the default SliceOrder is a legal
configuration (42_scan.md R201). -/

namespace Sys2Proof

theorem panel_wf {width height : Nat} {scanStart : BitVec 2} {compact tall : Font}
    (hw : width % 8 = 0 ∧ 8 ≤ width ∧ width ≤ 2048) (hh : height % 4 = 0 ∧ 4 ≤ height ∧ height ≤ 2048)
    (hcompact : compact.wf) (htall : tall.wf) : (Config.panel width height scanStart compact tall).wf := by
  obtain ⟨hw8, hwmin, hwmax⟩ := hw
  obtain ⟨hh4, hhmin, hhmax⟩ := hh
  refine ⟨hw8, hwmin, hwmax, hh4, hhmin, hhmax, fun s => ?_, hcompact, htall⟩
  match s with
  | 0 | 1 | 2 | 3 => exact .refl _

theorem Config.reference_wf : Config.reference.wf :=
  panel_wf (by decide) (by decide) (by decide) (by decide)

end Sys2Proof

namespace Sys2Proof.Machine

theorem hostStep_reset {s : State} {rest : List HostMove} (h : s.host = .reset :: rest) :
    hostStep s = some { resetBlock s with host := rest } := by
  simp only [hostStep, h]

end Sys2Proof.Machine

/-! SUPPORT. READ_PIXEL with no word to come: the one RDPIX is still to be performed on the framebuffer as it stands, or
its result stands (70_reset_and_hazards.md R284). -/

namespace Sys2Proof.Machine

/-- What every step keeps holds at the end of a run where it holds at its start. -/
theorem runsTo_keeps {P : State → Prop} (hkeep : ∀ s t, step s = .next t → P s → P t) {n : Nat} {s t : State}
    (hrun : runsTo n s t) (hs : P s) : P t := by
  induction n generalizing s with
  | zero => cases hrun; exact hs
  | succ n ih =>
    obtain ⟨u, hstep, hrest⟩ := runsTo_succ.mp hrun
    exact ih hrest (hkeep s u hstep hs)

/-- What RDPIX(x, y) leaves in RDV and PIX in state `s` (40_pixel.md R137). -/
def readResult (x y : Int) (s : State) : Bool × Bool :=
  (s.cfg.inRange x y, s.cfg.inRange x y && pixelBit s.cfg s.fb x y)

/-- The DE has exactly RDPIX(x, y) left and it will read `r`, or the DE is idle and RDV and PIX are `r`. -/
def ReadGives (x y : Int) (r : Bool × Bool) (s : State) : Prop :=
  s.deOps = [.rdpix x y] ∧ readResult x y s = r ∨ s.deOps = [] ∧ (s.rdv, s.pix) = r

theorem ReadGives.of_eq {x y : Int} {r : Bool × Bool} {s t : State} (h : ReadGives x y r s)
    (hdraw : drawPart t = drawPart s) (hops : t.deOps = s.deOps) (hcfg : t.cfg = s.cfg) : ReadGives x y r t := by
  simp only [drawPart, Prod.mk.injEq] at hdraw
  obtain ⟨hfb, hpix, hrdv⟩ := hdraw
  simpa only [ReadGives, readResult, hfb, hpix, hrdv, hops, hcfg] using h

/-- The DE's step performs the RDPIX, and its result is what it would read. -/
theorem ReadGives.performed {x y : Int} {r : Bool × Bool} {op : MicroOp} {rest : List MicroOp} {s t : State}
    (h : ReadGives x y r s) (hops : s.deOps = op :: rest) (hop : perform op { s with deOps := rest } = .next t) :
    ReadGives x y r t := by
  obtain ⟨hread, hr⟩ | ⟨hidle, -⟩ := h
  · cases hops.symm.trans hread
    rw [perform_rdpix] at hop
    cases hop
    exact .inr ⟨rfl, hr⟩
  · cases hops.symm.trans hidle

theorem ScanMoves.drawPart_eq {s t : State} (h : ScanMoves s t) : drawPart t = drawPart s := by
  rw [h.changes_only]; rfl

theorem Moves.readGives {x y : Int} {r : Bool × Bool} {s t : State} (h : Moves s t) (hs : NoWordToCome s)
    (hread : ReadGives x y r s) : ReadGives x y r t := by
  obtain ⟨hslot, hhost⟩ := hs
  cases h with
  | refuses w hw | accepts w hw => rw [hslot] at hw; cases hw
  | draws op rest hops h => exact hread.performed hops h
  | scans h =>
    obtain ⟨hcfg, -, hops, -, -⟩ := h.frame
    exact hread.of_eq h.drawPart_eq hops hcfg
  | host h =>
    obtain ⟨rest, hreset, -⟩ | ⟨-, hdraw, hops, hcfg⟩ := h.parts_eq
    · simp [hreset] at hhost
    · exact hread.of_eq hdraw hops hcfg

theorem step_readGives {x y : Int} {r : Bool × Bool} {s t : State} (h : step s = .next t)
    (hs : NoWordToCome s ∧ ReadGives x y r s) : NoWordToCome t ∧ ReadGives x y r t := by
  obtain ⟨hword, hread⟩ := hs
  refine ⟨(step_drawn h hword).1, ?_⟩
  obtain rfl | hmove := step_next_cases h
  · exact hread
  · exact hmove.readGives (by simpa [NoWordToCome] using hword)
      (hread.of_eq (by simp [drawPart]) (drawTurn_deOps s) (drawTurn_cfg s))

end Sys2Proof.Machine

/-! SUPPORT. At a run's end with no RESET to come (70_reset_and_hazards.md R291): only the host can move, and its reads
and waits change nothing that is observed (10_state.md R48). -/

namespace Sys2Proof.Machine

/-- No word is to come and both engines are idle. -/
abbrev Finished (s : State) : Prop := NoWordToCome s ∧ s.deOps = [] ∧ s.se = .idle

theorem quiescent_iff (s : State) : quiescent s = true ↔
    s.slot = none ∧ (∀ move ∈ s.host, move.isWrite = false) ∧ s.deOps = [] ∧ s.se = .idle := by
  simp only [quiescent, Bool.and_eq_true, Bool.not_eq_true', Option.isNone_iff_eq_none, List.all_eq_true,
    deBusy_eq_false, seBusy_eq_false, and_assoc]

theorem HostMove.reads_or_waits_iff (move : HostMove) :
    move = .readStatus ∨ move = .waitIdle ↔ move.isWrite = false ∧ move ≠ .reset := by
  cases move <;> simp [HostMove.isWrite]

theorem finished_iff (s : State) : Finished s ↔ quiescent s = true ∧ HostMove.reset ∉ s.host := by
  have hhost : (∀ move ∈ s.host, move = .readStatus ∨ move = .waitIdle) ↔
      (∀ move ∈ s.host, move.isWrite = false) ∧ HostMove.reset ∉ s.host := by
    simp only [HostMove.reads_or_waits_iff, forall_and, ne_eq, List.forall_mem_ne']
  rw [Finished, NoWordToCome, hhost, quiescent_iff]
  tauto

theorem ScanMoves.busy {s t : State} (h : ScanMoves s t) : s.se ≠ .idle := by
  cases h with
  | skips hse | starts hse | blanks sl hse | selects sl hse | shifts sl k off hse | latches sl hse | enables sl hse
  | advances sl hse => simp [hse]

/-- Where a run has ended, a move is the host's read of STATUS or wait. -/
theorem Moves.host_only {s t : State} (h : Moves s t) (hs : Finished s) :
    t = { s with statusReads := t.statusReads, host := t.host } := by
  obtain ⟨⟨hslot, hhost⟩, hde, hse⟩ := hs
  cases h with
  | refuses w hw | accepts w hw => rw [hslot] at hw; cases hw
  | draws op rest hops => rw [hde] at hops; cases hops
  | scans h => exact absurd hse h.busy
  | host h =>
    cases h with
    | writes w rest hmoves | resets rest hmoves => simp [hmoves] at hhost
    | reads | waits => rfl

/-- So a step there changes the host's list, its recorded reads and the turns at most. -/
theorem step_of_finished {s t : State} (h : step s = .next t) (hs : Finished s) :
    t = { s with statusReads := t.statusReads, host := t.host, schedule := t.schedule, turns := t.turns } := by
  obtain rfl | hmove := step_next_cases h
  · rfl
  · have ht := hmove.host_only (by simpa [Finished, NoWordToCome] using hs)
    rw [drawTurn_eq] at ht
    rw [ht]

theorem step_keeps_observation {o : Observation} {s t : State} (h : step s = .next t)
    (hs : Finished s ∧ observe s = o) : Finished t ∧ observe t = o := by
  obtain ⟨hend, hobs⟩ := hs
  obtain ⟨hword, -⟩ := step_drawn h hend.1
  rw [step_of_finished h hend] at hword ⊢
  exact ⟨⟨hword, hend.2⟩, hobs⟩

end Sys2Proof.Machine

/-! The statements about reset and hazards (70_reset_and_hazards.md). -/

namespace Sys2Proof.Machine

/-- Settles O9: the reset move's state, field by field. -/
theorem resetReplacesTheWholeState : Obligations.ResetReplacesTheWholeState := by
  intro s rest h
  refine ⟨{ resetBlock s with host := rest }, ?_, fun _ => rfl, rfl, rfl, rfl, rfl, rfl, rfl, rfl, rfl, rfl, ?_, rfl,
    rfl, rfl, rfl, rfl⟩
  · simp only [agentStep, hostStep_reset h, Option.map_some]
  · exact (status_idle_iff _).mpr ⟨rfl, rfl⟩

/-- Settles O55: an empty framebuffer, idle engines and an empty history; the reference configuration is legal. -/
theorem resetMeetsTheInvariant : Obligations.ResetMeetsTheInvariant :=
  have hreset : ∀ c : Config, c.wf → (State.resetOf c).Inv ∧ (State.resetOf c).HistoryOk :=
    fun _ hc => ⟨resetOf_inv hc, .of_empty rfl rfl rfl⟩
  ⟨hreset, hreset _ Config.reference_wf⟩

/-- Settles O35: each command's list is counted by its own lemma. -/
theorem everyDrawingTakesItsNumberOfSteps : Obligations.EveryDrawingTakesItsNumberOfSteps := by
  intro c x1 y1 x2 y2 field v b g hfield
  obtain ⟨m, hm⟩ := Mode.exists_ofField hfield
  simp only [Instr.microOps, hm, Option.map_some, Option.getD_some, length_pixOps]
  refine ⟨rfl, rfl, length_clearOps c b, length_linePixels .., length_boxPixels .., length_filledBoxPixels ..,
    fun hneg => ?_, fun hglyph => ?_, fun hid => ?_⟩
  · rw [circlePixels_of_neg hneg, List.length_nil]
  · obtain ⟨bm, hbm⟩ := Option.ne_none_iff_exists'.mp hglyph
    rw [hbm]
    exact length_glyphOps ..
  · obtain ⟨p, hp⟩ := Pattern.exists_ofId (Nat.le_of_lt_succ hid)
    rw [hp]
    exact length_patternOps c p

/-- Settles O39, by induction on the run: until the DE performs its RDPIX nothing that it reads changes, and afterwards
nothing writes PIX or RDV. -/
theorem aReadResultStandsOnceTheDrawingEngineIsIdle : Obligations.AReadResultStandsOnceTheDrawingEngineIsIdle := by
  intro n s t x y hops hslot hhost hrun hbusy
  have hidle : t.deOps = [] := not_not.mp (mt (status_deBusy_iff t).mpr (Bool.eq_false_iff.mp hbusy))
  obtain ⟨-, ⟨hread, -⟩ | ⟨-, hresult⟩⟩ := runsTo_keeps
    (P := fun u => NoWordToCome u ∧ ReadGives x y (readResult x y s) u) (fun _ _ => step_readGives) hrun
    ⟨⟨hslot, hhost⟩, .inl ⟨hops, rfl⟩⟩
  · cases hidle.symm.trans hread
  · exact Prod.mk.inj hresult

/-- Settles O60, by induction on the run: from its end on only the host moves, and only to read STATUS or to wait. -/
theorem theObservationAtARunsEndIsFinal : Obligations.TheObservationAtARunsEndIsFinal := by
  intro n s t hq hreset hrun
  obtain ⟨hend, hobs⟩ := runsTo_keeps (P := fun u => Finished u ∧ observe u = observe s)
    (fun _ _ => step_keeps_observation) hrun ⟨(finished_iff s).mpr ⟨hq, hreset⟩, rfl⟩
  exact ⟨((finished_iff t).mp hend).1, hobs⟩

end Sys2Proof.Machine
